-- ==== Sys2Proof/Word.lean ====
section
/-! DEFINITION. The words of the machine: what 00_scope.md R9 and R10 fix.
Values are unsigned and bit 0 is the least significant bit (R10). -/

namespace Sys2Proof

/-- A command word or a response's data word: 32 bits (00_scope.md R9). -/
abbrev Word := BitVec 32

/-- One buffer byte (10_state.md R20). -/
abbrev Byte := BitVec 8

/-- A word index, one per 11 bits of the checksummed entropy (10_state.md R22). -/
abbrev Index := BitVec 11

end Sys2Proof
end

