-- ==== Sys2Proof/Syntax.lean ====
section
/-! DEFINITION. The fifteen commands (30_encoding.md R91), one constructor per row of opcode_table.json.
Offsets, addresses, lengths, counts and selectors are numbers (00_scope.md R13); data are bits. -/

namespace Sys2Proof

/-- A command with its operands (30_encoding.md R91, R97). -/
inductive Instr where
  /-- `RD11 off`: read an 11-bit field at a bit offset (40_bitpacker.md R125). -/
  | rd11 (off : Nat)
  /-- `WR11 val, off`: OR an 11-bit value into the buffer (40_bitpacker.md R126). -/
  | wr11 (val : Index) (off : Nat)
  /-- `CSAPP`: append the checksum byte (41_checksum.md R143). -/
  | csapp
  /-- `CSVFY`: verify the checksum bits (41_checksum.md R145). -/
  | csvfy
  /-- `CFGE n`: configure for encoding `n` entropy bytes (42_encoder.md R160). -/
  | cfge (n : Nat)
  /-- `UNPK`: unpack the word indices (42_encoder.md R163). -/
  | unpk
  /-- `CFGD ms`: configure for validating `ms` words (43_decoder.md R180). -/
  | cfgd (ms : Nat)
  /-- `PACK`: pack the word indices (43_decoder.md R183). -/
  | pack
  /-- `SETLEN n`: set the buffer's logical length (44_buffer_access.md R200). -/
  | setlen (n : Nat)
  /-- `PUTB a, d`: store one buffer byte (44_buffer_access.md R201). -/
  | putb (a : Nat) (d : Byte)
  /-- `GETB a`: read one buffer byte (44_buffer_access.md R202). -/
  | getb (a : Nat)
  /-- `PUTI wi, val`: store one index register (44_buffer_access.md R203). -/
  | puti (wi : Nat) (val : Index)
  /-- `GETI wi`: read one index register (44_buffer_access.md R204). -/
  | geti (wi : Nat)
  /-- `WIPE`: zero every piece of state (45_system.md R220). -/
  | wipe
  /-- `STAT sel`: return a status word (45_system.md R221). -/
  | stat (sel : Nat)
  deriving DecidableEq, Repr

end Sys2Proof
end

