-- ==== Sys2Proof/WellFormed.lean ====
section
/-! DEFINITION. When a command can be written down as a word: each operand fits its field
(30_encoding.md R92 to R96). Values that fit but that a command does not accept are well formed; the
command's own rule refuses them with a status (R93). -/

namespace Sys2Proof

/-- Every operand fits its field: OFF 9 bits (R95), N 6 bits (R93), ADDR 6 bits (R94), WI 5 bits (R96).
VAL and DATA carry their width in their type. -/
abbrev WellFormed : Instr → Prop
  | .rd11 off => off < 512
  | .wr11 _ off => off < 512
  | .csapp => True
  | .csvfy => True
  | .cfge n => n < 64
  | .unpk => True
  | .cfgd ms => ms < 64
  | .pack => True
  | .setlen n => n < 64
  | .putb a _ => a < 64
  | .getb a => a < 64
  | .puti wi _ => wi < 32
  | .geti wi => wi < 32
  | .wipe => True
  | .stat sel => sel < 64

end Sys2Proof
end

