-- ==== Sys2Proof/Decode.lean ====
section
/-! DEFINITION. Decoding a command word (30_encoding.md R103, R97, R98) by the match/mask table, the encoder
from the same table (R100), and the host's entry `decodeTableWord`. -/

namespace Sys2Proof

/-! Operand fields of a command word `w` (30_encoding.md R97). -/

/-- `N = cmd[5:0]`. -/
def fieldN (w : Word) : Nat := (w.extractLsb' 0 6).toNat

/-- `ADDR = cmd[13:8]`. -/
def fieldAddr (w : Word) : Nat := (w.extractLsb' 8 6).toNat

/-- `DATA = cmd[7:0]`. -/
def fieldData (w : Word) : Byte := w.extractLsb' 0 8

/-- `VAL = cmd[19:9]` (format O). -/
def fieldValO (w : Word) : Index := w.extractLsb' 9 11

/-- `VAL = cmd[10:0]` (format X). -/
def fieldValX (w : Word) : Index := w.extractLsb' 0 11

/-- `OFF = cmd[8:0]`. -/
def fieldOff (w : Word) : Nat := (w.extractLsb' 0 9).toNat

/-- `WI = cmd[15:11]`. -/
def fieldWi (w : Word) : Nat := (w.extractLsb' 11 5).toNat

/-- `OP = cmd[31:28]` (30_encoding.md R90). -/
def fieldOp (w : Word) : BitVec 4 := w.extractLsb' 28 4

/-- One row of the table of 30_encoding.md R103: a word is this command when `cmd & mask = pattern`
(the spec's `match`), and `build` then takes its operands by R97. -/
structure Row where
  pattern : Word
  mask : Word
  build : Word → Instr

/-- The table of 30_encoding.md R103 (the rows of opcode_table.json), in its order. -/
def opcodeTable : List Row :=
  [ ⟨0x10000000, 0xFFFFFE00, fun w => .rd11 (fieldOff w)⟩,
    ⟨0x20000000, 0xFFF00000, fun w => .wr11 (fieldValO w) (fieldOff w)⟩,
    ⟨0x30000000, 0xFFFFFFFF, fun _ => .csapp⟩,
    ⟨0x40000000, 0xFFFFFFFF, fun _ => .csvfy⟩,
    ⟨0x50000000, 0xFFFFFFC0, fun w => .cfge (fieldN w)⟩,
    ⟨0x60000000, 0xFFFFFFFF, fun _ => .unpk⟩,
    ⟨0x70000000, 0xFFFFFFC0, fun w => .cfgd (fieldN w)⟩,
    ⟨0x80000000, 0xFFFFFFFF, fun _ => .pack⟩ ] ++
  [ ⟨0x90000000, 0xFFFFFFC0, fun w => .setlen (fieldN w)⟩,
    ⟨0xA0000000, 0xFFFFC000, fun w => .putb (fieldAddr w) (fieldData w)⟩,
    ⟨0xB0000000, 0xFFFFC0FF, fun w => .getb (fieldAddr w)⟩,
    ⟨0xC0000000, 0xFFFF0000, fun w => .puti (fieldWi w) (fieldValX w)⟩,
    ⟨0xD0000000, 0xFFFF07FF, fun w => .geti (fieldWi w)⟩,
    ⟨0xE0000000, 0xFFFFFFFF, fun _ => .wipe⟩,
    ⟨0xF0000000, 0xFFFFFFC0, fun w => .stat (fieldN w)⟩ ]

/-- Why a word is no command (30_encoding.md R98, 93_implementation_defined.md V1 to V3). -/
inductive Illegal where
  /-- `OP = 0`, the all-zero word among them (V1). -/
  | reservedOpcode
  /-- A legal opcode with a 1 in a must-be-zero bit (V2, V3). -/
  | mustBeZeroBit
  deriving DecidableEq, Repr

/-- Whether the word `w` matches the row `r`: `cmd & mask = match` (30_encoding.md R103). -/
def rowMatches (w : Word) (r : Row) : Bool := w &&& r.mask == r.pattern

/-- Decoding (30_encoding.md R103): the command of the row that matches; if none does, the word is illegal
(R98), by name. Total on all words. -/
def decode (w : Word) : Except Illegal Instr :=
  match opcodeTable.find? (rowMatches w) with
  | some r => .ok (r.build w)
  | none => if fieldOp w = 0 then .error .reservedOpcode else .error .mustBeZeroBit

/-- The operand `v` put into a field of `width` bits whose lowest bit is bit `lo` (30_encoding.md R97). -/
def place (width lo v : Nat) : Word := (BitVec.ofNat width v).setWidth 32 <<< lo

/-- Encoding: the row's `match` value with the operands placed (30_encoding.md R100, R97). -/
def encode : Instr → Word
  | .rd11 off => 0x10000000 ||| place 9 0 off
  | .wr11 val off => 0x20000000 ||| place 11 9 val.toNat ||| place 9 0 off
  | .csapp => 0x30000000
  | .csvfy => 0x40000000
  | .cfge n => 0x50000000 ||| place 6 0 n
  | .unpk => 0x60000000
  | .cfgd ms => 0x70000000 ||| place 6 0 ms
  | .pack => 0x80000000
  | .setlen n => 0x90000000 ||| place 6 0 n
  | .putb a d => 0xA0000000 ||| place 6 8 a ||| place 8 0 d.toNat
  | .getb a => 0xB0000000 ||| place 6 8 a
  | .puti wi val => 0xC0000000 ||| place 5 11 wi ||| place 11 0 val.toNat
  | .geti wi => 0xD0000000 ||| place 5 11 wi
  | .wipe => 0xE0000000
  | .stat sel => 0xF0000000 ||| place 6 0 sel

/-- The instruction the decoder reads from a table row's bits `w` (bit 0 the least significant, every bit
from `nbits` up 0). A command is one 32-bit word (30_encoding.md R90), presented whole at the command port,
so no byte order enters (91_not_in_source.md N9). -/
def decodeTableWord (nbits w : Nat) : Option Instr :=
  (decode (BitVec.ofNat 32 (w % 2 ^ nbits))).toOption

end Sys2Proof
end

