-- ==== Sys2Proof/Config.lean ====
section
/-! DEFINITION. What is fixed for the machine (00_scope.md R6) and the one value the spec leaves open,
the function Sha256 (00_scope.md R8). -/

namespace Sys2Proof.Config

/-- Bits of one field, `FIELD_BITS` (00_scope.md R6). -/
abbrev fieldBits : Nat := 11

/-- Bytes of `BUF`, `BUF_BYTES` (00_scope.md R6). -/
abbrev bufBytes : Nat := 33

/-- Registers of `IDX`, `IDX_WORDS` (00_scope.md R6). -/
abbrev idxWords : Nat := 24

/-- Bytes of a digest, `DIGEST_BYTES` (00_scope.md R6).
PRESUMED (log 4): the spec marks it as general knowledge, not in its source. -/
abbrev digestBytes : Nat := 32

/-- Least entropy length in bits, `ENT_MIN_BITS` (00_scope.md R6). -/
abbrev entMinBits : Nat := 128

/-- Greatest entropy length in bits, `ENT_MAX_BITS` (00_scope.md R6). -/
abbrev entMaxBits : Nat := 256

/-- Step between entropy lengths in bits, `ENT_STEP_BITS` (00_scope.md R6). -/
abbrev entStepBits : Nat := 32

/-- A digest: 32 bytes, byte 0 first. -/
abbrev Digest := Vector Byte digestBytes

/-- The parameter `Sha256` (00_scope.md R8): any total function of the message bytes.
It has no body, so no proof can use a value of it (log 3). -/
opaque sha256 : List Byte → Digest

end Sys2Proof.Config
end

