-- ==== Sys2Proof/Machine/State.lean ====
section
/-! DEFINITION. The state: the twelve pieces of 10_state.md (R20 to R31), the three fields that hold what
stands at the ports (R40 to R44), and the reset state (70_reset_and_hazards.md R270). Plain data. -/

namespace Sys2Proof.Machine

/-- The flow phase held in `MODE` (10_state.md R25). -/
inductive Mode where
  /-- 0: no flow in progress. -/
  | idle
  /-- 1: encoder configured, the host loads the entropy. -/
  | encLoad
  /-- 2: checksum byte appended. -/
  | encReady
  /-- 3: decoder configured. -/
  | dec
  deriving DecidableEq, Repr

/-- The status codes of a response, and what `ERR` holds (60_exceptions.md R230). The other codes are
never produced, so they have no constructor. -/
inductive Status where
  | ok
  | entropyTooLow
  | entropyTooHigh
  | entropyNotAligned
  | invalidWordCount
  | invalidChecksum
  | illegalCommand
  | badOffset
  | badAddress
  | badSequence
  deriving DecidableEq, Repr

/-- A response, `(rsp_st, rsp_data)` (10_state.md R41, R43). -/
structure Response where
  st : Status
  data : Word
  deriving DecidableEq, Repr

/-- One exchange on the hash port: the message the block sends and the digest the engine answers
(10_state.md R40, R44). -/
structure HashExchange where
  msg : List Byte
  digest : Config.Digest
  deriving DecidableEq, Repr

/-- A move of the host (70_reset_and_hazards.md R288; 10_state.md R45). -/
inductive HostMove where
  /-- A command word presented at the command port. -/
  | command (w : Word)
  /-- `rst` asserted between commands. -/
  | rst
  deriving DecidableEq, Repr

/-- The buffer `BUF` as a list of (address, byte) cells: addresses rising, and no cell that holds what an
unlisted address reads as (log 5). -/
abbrev Memory := List Host.Cell

/-- The state of the block, and what stands at its ports. -/
structure State where
  /-- `BUF`, 33 bytes (10_state.md R20). -/
  buf : Memory
  /-- `LEN`, 6 bits (R21). -/
  len : BitVec 6
  /-- `IDX`, 24 registers of 11 bits (R22). -/
  idx : Vector Index Config.idxWords
  /-- `CS`, 4 bits (R23). -/
  cs : BitVec 4
  /-- `MS`, 5 bits (R24). -/
  ms : BitVec 5
  /-- `MODE`, 2 bits (R25). -/
  mode : Mode
  /-- `CSB`, 8 bits (R26). -/
  csb : Byte
  /-- `OBS`, 8 bits (R27). -/
  obs : Byte
  /-- `DIGEST`, 32 bytes (R28). -/
  digest : Config.Digest
  /-- `ERR`, 4 bits (R29). -/
  err : Status
  /-- `CSOK`, 1 bit (R30). -/
  csok : Bool
  /-- `VFD`, 1 bit (R31). -/
  vfd : Bool
  /-- The host's pending moves, oldest first (the model's own, log 1). -/
  host : List HostMove
  /-- The response of the last command (the model's own, log 2). -/
  rsp : Option Response
  /-- The hash-port exchange of the last command (the model's own, log 2). -/
  hash : Option HashExchange
  deriving DecidableEq, Repr

/-- How a step can stop with a fault. Each arises only in a state whose `LEN`, `CS` or `MS` holds an encoding
outside its legal values, which no command ever writes (93_implementation_defined.md V7, 10_state.md R37);
the spec gives such a state no behaviour, because the bytes or registers named do not exist.
All are safe (log 6). -/
inductive Fault where
  /-- `LEN` is above 33: raised by `RD11`, `WR11`, `UNPK`, `PACK`, `PUTB`, `GETB`. Safe. -/
  | lenBeyondBuffer
  /-- `BUF[EB]` does not exist, `EB` above 32: raised by `CSAPP`. Safe. -/
  | noSuchByte
  /-- `MS` is above 24: raised by `UNPK`, `PACK`. Safe. -/
  | noSuchIndex
  deriving DecidableEq, Repr

/-- How a step can be refused. -/
inductive Refusal where
  /-- An instruction that has no meaning yet; raised by no arm of `exec`. Safe. -/
  | notModelled (mnemonic : String)
  /-- `CSVFY` in mode `DEC` with `CS` outside 4..8: `csmask` is not defined there (41_checksum.md R146,
  93_implementation_defined.md U4). No reachable state has this. Safe (log 7). -/
  | checksumMaskUndefined
  deriving DecidableEq, Repr

/-- The reset state (70_reset_and_hazards.md R270): every piece of state 0. At the ports nothing is pending
and nothing has been answered (log 1, log 2). -/
def State.reset : State where
  buf := []
  len := 0
  idx := Vector.replicate Config.idxWords 0
  cs := 0
  ms := 0
  mode := .idle
  csb := 0
  obs := 0
  digest := Vector.replicate Config.digestBytes 0
  err := .ok
  csok := false
  vfd := false
  host := []
  rsp := none
  hash := none

end Sys2Proof.Machine
end

