-- ==== Sys2Proof/Machine/Ops.lean ====
section
/-! DEFINITION. The named operations over the buffer, the index registers and the ports, and the two ways a
command ends: `respond` and `raise` (00_scope.md R12, 60_exceptions.md R240). -/

namespace Sys2Proof.Machine

/-! ### The buffer as bytes (20_memory.md R60) -/

/-- What an address with no cell reads as: the reset value 0 (10_state.md R20). -/
def Memory.blank : Byte := 0

/-- `BUF[a]` (00_scope.md R12), with no length check. -/
def Memory.read : Memory → Nat → Byte
  | [], _ => Memory.blank
  | (b, v) :: m, a => if a = b then v else Memory.read m a

/-- `BUF[a] <- v` (00_scope.md R12), keeping the canonical form. -/
def Memory.write : Memory → Nat → Byte → Memory
  | [], a, v => if v = Memory.blank then [] else [(a, v)]
  | (b, w) :: m, a, v =>
    if a < b then if v = Memory.blank then (b, w) :: m else (a, v) :: (b, w) :: m
    else if a = b then if v = Memory.blank then m else (a, v) :: m
    else (b, w) :: Memory.write m a v

/-- The buffer with every byte 0: `BUF[0..32] <- all 0`. -/
def Memory.zeroed : Memory := []

/-- The canonical form: addresses strictly rising, no cell equal to a blank one, and every cell one of the 33
bytes that exist (10_state.md R20). -/
abbrev Memory.wf (m : Memory) : Prop :=
  m.Pairwise (fun p q => p.1 < q.1) ∧ ∀ p ∈ m, p.2 ≠ Memory.blank ∧ p.1 < Config.bufBytes

/-- `bufbit(B, o)`: bit offset `o` is bit `7 - (o mod 8)` of byte `o div 8` (00_scope.md R11). -/
def Memory.bit (m : Memory) (o : Nat) : Bool := (m.read (o / 8)).getLsbD (7 - o % 8)

/-! ### Guarded accesses of the field primitives: `len` is the logical length (20_memory.md R64) -/

/-- One byte of `MemRead` (00_scope.md R12): a byte at an address at or above `len` reads as 0. -/
def Memory.guarded (m : Memory) (len a : Nat) : Byte := if a < len then m.read a else 0

/-- One byte of `MemOr` (00_scope.md R12): a byte at an address at or above `len` is not written. -/
def Memory.orByte (m : Memory) (len a : Nat) (v : Byte) : Memory :=
  if a < len then m.write a (m.read a ||| v) else m

/-- `MemRead(k, 3)`, the 24-bit window, lowest address most significant (20_memory.md R61). -/
def Memory.window (m : Memory) (len k : Nat) : BitVec 24 :=
  m.guarded len k ++ m.guarded len (k + 1) ++ m.guarded len (k + 2)

/-- `MemOr(k, 3, w)` (00_scope.md R12). -/
def Memory.orWindow (m : Memory) (len k : Nat) (w : BitVec 24) : Memory :=
  ((m.orByte len k (w.extractLsb' 16 8)).orByte len (k + 1) (w.extractLsb' 8 8)).orByte len (k + 2)
    (w.extractLsb' 0 8)

/-- The 11 bits that `read11` takes from a window, for a field that starts `r` bits into it: shift right by
`13 - r` and mask (40_bitpacker.md R120). -/
def windowField (w : BitVec 24) (r : Nat) : Index := ((w >>> (13 - r)) &&& 0x7FF#24).setWidth 11

/-- `v << (13 - r)`: a value placed in the window where `windowField` finds it (40_bitpacker.md R122). -/
def placeField (v : Index) (r : Nat) : BitVec 24 := v.setWidth 24 <<< (13 - r)

/-- `read11(off)` of a buffer of `len` bytes (40_bitpacker.md R120). -/
def Memory.read11 (m : Memory) (len off : Nat) : Index := windowField (m.window len (off / 8)) (off % 8)

/-- `write11(v, off)` of a buffer of `len` bytes (40_bitpacker.md R122). -/
def Memory.write11 (m : Memory) (len : Nat) (v : Index) (off : Nat) : Memory :=
  m.orWindow len (off / 8) (placeField v (off % 8))

/-! ### The index registers (10_state.md R22) -/

/-- The index file's type: 24 registers of 11 bits. -/
abbrev IndexFile := Vector Index Config.idxWords

/-- `IDX[i]`, for `i <= 23`. -/
def idxGet (x : IndexFile) (i : Nat) : Index := x[i]?.getD 0

/-- `IDX[i] <- v`, for `i <= 23`. -/
def idxPut (x : IndexFile) (i : Nat) (v : Index) : IndexFile := x.setIfInBounds i v

/-- `IDX[0..23] <- all 0`. -/
def idxZeroed : IndexFile := Vector.replicate Config.idxWords 0

/-! ### The two loops (42_encoder.md R164, 43_decoder.md R184) -/

/-- `for wi in 0..n: IDX[wi] <- read11(11*wi)` (42_encoder.md R164). -/
def unpackLoop (m : Memory) (len : Nat) (x : IndexFile) : Nat → IndexFile
  | 0 => x
  | n + 1 => idxPut (unpackLoop m len x n) n (m.read11 len (11 * n))

/-- `for wi in a..a+n: IDX[wi] <- 0` (42_encoder.md R163). -/
def clearLoop (x : IndexFile) (a : Nat) : Nat → IndexFile
  | 0 => x
  | n + 1 => idxPut (clearLoop x a n) (a + n) 0

/-- `for wi in 0..n: write11(IDX[wi], 11*wi)` (43_decoder.md R184). -/
def packLoop (m : Memory) (len : Nat) (x : IndexFile) : Nat → Memory
  | 0 => m
  | n + 1 => (packLoop m len x n).write11 len (idxGet x n) (11 * n)

/-! ### Updates of the state -/

/-- `BUF[a] <- v`. -/
def State.putByte (s : State) (a : Nat) (v : Byte) : State := { s with buf := s.buf.write a v }

/-- `write11(v, off)` on the block's buffer. -/
def State.write11 (s : State) (v : Index) (off : Nat) : State :=
  { s with buf := s.buf.write11 s.len.toNat v off }

/-- `read11(off)` of the block's buffer. -/
def State.read11 (s : State) (off : Nat) : Index := s.buf.read11 s.len.toNat off

/-- `BUF[0..32] <- all 0`. -/
def State.zeroBuf (s : State) : State := { s with buf := Memory.zeroed }

/-- `IDX[i] <- v`. -/
def State.putIdx (s : State) (i : Nat) (v : Index) : State := { s with idx := idxPut s.idx i v }

/-- `EB = 4*CS`, the entropy length in bytes (10_state.md R23). -/
def State.eb (s : State) : Nat := 4 * s.cs.toNat

/-! ### The hash port (10_state.md R44, 41_checksum.md R140 to R142) -/

/-- The hash message: the bytes `BUF[0], ..., BUF[EB-1]` in ascending address order and nothing else
(41_checksum.md R140). -/
def State.message (s : State) : List Byte := (List.range s.eb).map s.buf.read

/-- The exchange on the hash port in which the engine answers `d`: `DIGEST` receives it (10_state.md R44). -/
def State.receiveDigest (s : State) (d : Config.Digest) : State :=
  { s with digest := d, hash := some ⟨s.message, d⟩ }

/-- `CSB <- DIGEST[0]` and then `DIGEST <- all 0` (41_checksum.md R141, R142). -/
def State.takeChecksumByte (s : State) : State :=
  { s with csb := s.digest[0], digest := Vector.replicate Config.digestBytes 0 }

/-! ### How a command ends -/

/-- `respond(st, data)` (00_scope.md R12). -/
def State.respond (s : State) (st : Status) (data : Word) : Host.Outcome State Fault Refusal :=
  .next { s with rsp := some ⟨st, data⟩ }

/-- `if ERR = 0 then ERR <- code`: `ERR` is first-error-sticky (60_exceptions.md R241). -/
def State.latch (s : State) (code : Status) : State :=
  { s with err := if s.err = .ok then code else s.err }

/-- `raise`: error entry (60_exceptions.md R240). Nothing changes but `ERR`, and the response is `(code, 0)`.
There is no return beside it, because nothing was saved and no control moved (R243). -/
def State.raise (s : State) (code : Status) : Host.Outcome State Fault Refusal :=
  (s.latch code).respond code 0

/-! ### The host's moves -/

/-- The block accepts a command, the oldest pending move: the response and the hash exchange of the command
before leave the ports (10_state.md R41). -/
def State.accept (s : State) (rest : List HostMove) : State :=
  { s with host := rest, rsp := none, hash := none }

/-- `rst` between commands: every piece of state to its reset value, and no response
(70_reset_and_hazards.md R270, R271). -/
def State.assertRst (_ : State) (rest : List HostMove) : State := { State.reset with host := rest }

/-- The host presents nothing: the state does not change (10_state.md R41). -/
def State.wait (s : State) : State := s

/-- The end of an illegal word (30_encoding.md R98, 60_exceptions.md R236). -/
def State.illegalCommand (s : State) : Host.Outcome State Fault Refusal := s.raise .illegalCommand

/-- The host presents the command word `w` next, before its other pending moves. -/
def State.present (s : State) (w : Word) : State := { s with host := .command w :: s.host }

end Sys2Proof.Machine
end

