-- ==== Sys2Proof/Machine/Operands.lean ====
section
/-! DEFINITION. The range checks of operands (20_memory.md R68, 60_exceptions.md R237, R238), the length
arithmetic of `CFGE` and `CFGD` (42_encoder.md R161, R162; 43_decoder.md R181, R182), and the existence checks that
only unreachable states fail (log 6). -/

namespace Sys2Proof.Machine

/-- A field access is in bounds: `off + 11 <= 8*LEN` (40_bitpacker.md R124). -/
abbrev State.offsetOk (s : State) (off : Nat) : Prop := off + Config.fieldBits ≤ 8 * s.len.toNat

/-- A byte access is in bounds: `a < LEN` (44_buffer_access.md R201, R202). -/
abbrev State.addressOk (s : State) (a : Nat) : Prop := a < s.len.toNat

/-- An index register exists: `wi <= 23` (44_buffer_access.md R203, R204). -/
abbrev indexOk (wi : Nat) : Prop := wi < Config.idxWords

/-- A buffer length `SETLEN` accepts: `n <= 33` (44_buffer_access.md R200). -/
abbrev lengthOk (n : Nat) : Prop := n ≤ Config.bufBytes

/-- A selector `STAT` accepts: `sel <= 1` (45_system.md R221). -/
abbrev selectorOk (sel : Nat) : Prop := sel ≤ 1

/-- The logical buffer exists: `LEN <= 33`. Every reachable state has it (10_state.md R21; log 6). -/
abbrev State.lenExists (s : State) : Prop := s.len.toNat ≤ Config.bufBytes

/-- The appended byte `BUF[EB]` exists. Every reachable state has it (10_state.md R37; log 6). -/
abbrev State.appendedByteExists (s : State) : Prop := s.eb < Config.bufBytes

/-- The `MS` index registers exist. Every reachable state has them (10_state.md R37; log 6). -/
abbrev State.wordsExist (s : State) : Prop := s.ms.toNat ≤ Config.idxWords

/-! ### Encoder arithmetic (42_encoder.md R161) -/

/-- `ent = 8*n`. -/
def encEnt (n : Nat) : Nat := 8 * n

/-- `cs = ent div 32`. -/
def encCs (n : Nat) : Nat := encEnt n / 32

/-- `ms = (ent + cs) div 11`. -/
def encMs (n : Nat) : Nat := (encEnt n + encCs n) / 11

/-- The entropy-length error of `n` bytes, in the order of 42_encoder.md R162; none when `n` is accepted. -/
def entropyError (n : Nat) : Option Status :=
  if encEnt n < Config.entMinBits then some .entropyTooLow
  else if encEnt n > Config.entMaxBits then some .entropyTooHigh
  else if encEnt n % Config.entStepBits ≠ 0 then some .entropyNotAligned
  else none

/-! ### Decoder arithmetic (43_decoder.md R181) -/

/-- `entPlusCs = 11*ms`. -/
def decEntPlusCs (ms : Nat) : Nat := 11 * ms

/-- `ent = (entPlusCs*32) div 33`. -/
def decEnt (ms : Nat) : Nat := decEntPlusCs ms * 32 / 33

/-- `cs = ent div 32`. -/
def decCs (ms : Nat) : Nat := decEnt ms / 32

/-- Buffer length `ceil(entPlusCs/8)`, that is `(entPlusCs + 7) div 8`. -/
def decLen (ms : Nat) : Nat := (decEntPlusCs ms + 7) / 8

/-- The word-count test: both conditions of 43_decoder.md R182 (90_conflicts.md C1). -/
abbrev wordCountOk (ms : Nat) : Prop :=
  decEntPlusCs ms = decEnt ms + decCs ms ∧ Config.entMinBits ≤ decEnt ms ∧ decEnt ms ≤ Config.entMaxBits

end Sys2Proof.Machine
end

