-- ==== Sys2Proof/Machine/Flags.lean ====
section
/-! DEFINITION. The computation of the flag `CSOK` (41_checksum.md R146, R147), and the two status words
`STATUS` and `AUX` (10_state.md R32, R33) with the codes they hold. -/

namespace Sys2Proof.Machine

/-- The code of a flow phase (10_state.md R25). -/
def Mode.code : Mode → BitVec 2
  | .idle => 0
  | .encLoad => 1
  | .encReady => 2
  | .dec => 3

/-- The code of a status (60_exceptions.md R230). -/
def Status.code : Status → BitVec 4
  | .ok => 0
  | .entropyTooLow => 1
  | .entropyTooHigh => 2
  | .entropyNotAligned => 3
  | .invalidWordCount => 4
  | .invalidChecksum => 5
  | .illegalCommand => 8
  | .badOffset => 9
  | .badAddress => 10
  | .badSequence => 11

/-- `csmask` is defined for `CS` in 4..8 only (41_checksum.md R146). -/
abbrev csmaskDefined (cs : BitVec 4) : Prop := 4 ≤ cs.toNat ∧ cs.toNat ≤ 8

/-- `csmask(CS) = not8((1 << (8 - CS)) - 1)` (41_checksum.md R146); read only where it is defined. -/
def csmask (cs : BitVec 4) : Byte := ~~~(BitVec.ofNat 8 (1 <<< (8 - cs.toNat) - 1))

/-- Two bytes agree in their checksum bits (41_checksum.md R147): the value of `CSOK`. -/
def checksumAgrees (cs : BitVec 4) (x y : Byte) : Bool := x &&& csmask cs == y &&& csmask cs

/-- A flag as one bit of a status word. -/
def flagBit (b : Bool) : BitVec 1 := BitVec.ofBool b

/-- `STATUS` (10_state.md R32): from the top, nine 0 bits, `CS`, `MS`, `LEN`, `VFD`, `CSOK`, `MODE`, `ERR`. -/
def State.status (s : State) : Word :=
  0#9 ++ s.cs ++ s.ms ++ s.len ++ flagBit s.vfd ++ flagBit s.csok ++ s.mode.code ++ s.err.code

/-- `AUX` (10_state.md R33): from the top, sixteen 0 bits, `OBS`, `CSB`. -/
def State.aux (s : State) : Word := 0#16 ++ s.obs ++ s.csb

end Sys2Proof.Machine
end

