-- ==== Sys2Proof/Machine/BitPacker.lean ====
section
/-! DEFINITION. Family 40: `RD11` and `WR11` (40_bitpacker.md). -/

namespace Sys2Proof.Machine

/-- `RD11 off` (40_bitpacker.md R125). -/
def execRd11 (off : Nat) (s : State) : Host.Outcome State Fault Refusal :=
  if ¬s.offsetOk off then s.raise .badOffset
  else if ¬s.lenExists then .fault .lenBeyondBuffer
  else s.respond .ok ((s.read11 off).setWidth 32)

/-- `WR11 val, off` (40_bitpacker.md R126). -/
def execWr11 (val : Index) (off : Nat) (s : State) : Host.Outcome State Fault Refusal :=
  if ¬s.offsetOk off then s.raise .badOffset
  else if ¬s.lenExists then .fault .lenBeyondBuffer
  else (s.write11 val off).respond .ok 0

end Sys2Proof.Machine
end

