-- ==== Sys2Proof/Machine/BufferAccess.lean ====
section
/-! DEFINITION. Family 44: `SETLEN`, `PUTB`, `GETB`, `PUTI`, `GETI` (44_buffer_access.md). -/

namespace Sys2Proof.Machine

/-- `SETLEN n` (44_buffer_access.md R200): `BUF` is neither zeroed nor truncated. -/
def execSetlen (n : Nat) (s : State) : Host.Outcome State Fault Refusal :=
  if ¬lengthOk n then s.raise .badAddress
  else { s with len := BitVec.ofNat 6 n, mode := .idle }.respond .ok 0

/-- `PUTB a, d` (44_buffer_access.md R201): a store, not an OR. -/
def execPutb (a : Nat) (d : Byte) (s : State) : Host.Outcome State Fault Refusal :=
  if ¬s.addressOk a then s.raise .badAddress
  else if ¬s.lenExists then .fault .lenBeyondBuffer
  else (s.putByte a d).respond .ok 0

/-- `GETB a` (44_buffer_access.md R202). -/
def execGetb (a : Nat) (s : State) : Host.Outcome State Fault Refusal :=
  if ¬s.addressOk a then s.raise .badAddress
  else if ¬s.lenExists then .fault .lenBeyondBuffer
  else s.respond .ok ((s.buf.read a).setWidth 32)

/-- `PUTI wi, val` (44_buffer_access.md R203): the bound is the file's size, not `MS`. -/
def execPuti (wi : Nat) (val : Index) (s : State) : Host.Outcome State Fault Refusal :=
  if ¬indexOk wi then s.raise .badAddress
  else (s.putIdx wi val).respond .ok 0

/-- `GETI wi` (44_buffer_access.md R204). -/
def execGeti (wi : Nat) (s : State) : Host.Outcome State Fault Refusal :=
  if ¬indexOk wi then s.raise .badAddress
  else s.respond .ok ((idxGet s.idx wi).setWidth 32)

end Sys2Proof.Machine
end

