-- ==== Sys2Proof/Machine/Checksum.lean ====
section
/-! DEFINITION. Family 41: `CSAPP` and `CSVFY` (41_checksum.md). The effects of each are a function of the digest
the engine answers, so that they can be stated and tested for every digest. -/

namespace Sys2Proof.Machine

/-- The effects of `CSAPP` when the engine answers `d` (41_checksum.md R143, R144). -/
def csappEffect (d : Config.Digest) (s : State) : Host.Outcome State Fault Refusal :=
  let t := (s.receiveDigest d).takeChecksumByte
  let u := t.putByte s.eb t.csb
  { u with len := BitVec.ofNat 6 (s.eb + 1), mode := .encReady }.respond .ok (t.csb.setWidth 32)

/-- `CSAPP` (41_checksum.md R143). -/
def execCsapp (s : State) : Host.Outcome State Fault Refusal :=
  if s.mode ≠ .encLoad then s.raise .badSequence
  else if ¬s.appendedByteExists then .fault .noSuchByte
  else csappEffect (Config.sha256 s.message) s

/-- The effects of `CSVFY` when the engine answers `d`, up to its response (41_checksum.md R145, R149). -/
def csvfyCheck (d : Config.Digest) (s : State) : State :=
  let t := ({ s with obs := s.buf.read s.eb }.receiveDigest d).takeChecksumByte
  { t with csok := checksumAgrees t.cs t.csb t.obs, vfd := true, buf := Memory.zeroed, mode := .idle }

/-- The effects of `CSVFY` and its response: `InvalidChecksum` comes after the effects and latches `ERR`
(41_checksum.md R145, R148). -/
def csvfyEffect (d : Config.Digest) (s : State) : Host.Outcome State Fault Refusal :=
  let t := csvfyCheck d s
  if t.csok then t.respond .ok t.aux
  else (t.latch .invalidChecksum).respond .invalidChecksum t.aux

/-- `CSVFY` (41_checksum.md R145). -/
def execCsvfy (s : State) : Host.Outcome State Fault Refusal :=
  if s.mode ≠ .dec then s.raise .badSequence
  else if ¬csmaskDefined s.cs then .refused .checksumMaskUndefined
  else csvfyEffect (Config.sha256 s.message) s

end Sys2Proof.Machine
end

