-- ==== Sys2Proof/Machine/Decoder.lean ====
section
/-! DEFINITION. Family 43: `CFGD` and `PACK` (43_decoder.md). -/

namespace Sys2Proof.Machine

/-- `CFGD ms` (43_decoder.md R180): the word-count test of R182, then the configuration; `BUF` is zeroed whole. -/
def execCfgd (ms : Nat) (s : State) : Host.Outcome State Fault Refusal :=
  if ¬wordCountOk ms then s.raise .invalidWordCount
  else
    { s.zeroBuf with cs := BitVec.ofNat 4 (decCs ms), ms := BitVec.ofNat 5 ms,
                     len := BitVec.ofNat 6 (decLen ms), mode := .dec }.respond .ok
      ((BitVec.ofNat 6 (decLen ms)).setWidth 32)

/-- The buffer after `PACK` (43_decoder.md R184). -/
def State.packed (s : State) : Memory := packLoop s.buf s.len.toNat s.idx s.ms.toNat

/-- `PACK` (43_decoder.md R183). -/
def execPack (s : State) : Host.Outcome State Fault Refusal :=
  if s.mode ≠ .dec then s.raise .badSequence
  else if ¬s.lenExists then .fault .lenBeyondBuffer
  else if ¬s.wordsExist then .fault .noSuchIndex
  else { s with buf := s.packed }.respond .ok 0

end Sys2Proof.Machine
end

