-- ==== Sys2Proof/Machine/Encoder.lean ====
section
/-! DEFINITION. Family 42: `CFGE` and `UNPK` (42_encoder.md). -/

namespace Sys2Proof.Machine

/-- `CFGE n` (42_encoder.md R160): the errors of R162 in order, then the configuration. `BUF` is not zeroed. -/
def execCfge (n : Nat) (s : State) : Host.Outcome State Fault Refusal :=
  match entropyError n with
  | some e => s.raise e
  | none =>
    { s with cs := BitVec.ofNat 4 (encCs n), ms := BitVec.ofNat 5 (encMs n), len := BitVec.ofNat 6 n,
             mode := .encLoad }.respond .ok ((BitVec.ofNat 5 (encMs n)).setWidth 32)

/-- The index file after `UNPK` (42_encoder.md R163): the first `MS` fields, then zeros. -/
def State.unpacked (s : State) : IndexFile :=
  clearLoop (unpackLoop s.buf s.len.toNat s.idx s.ms.toNat) s.ms.toNat (Config.idxWords - s.ms.toNat)

/-- `UNPK` (42_encoder.md R163, R165). -/
def execUnpk (s : State) : Host.Outcome State Fault Refusal :=
  if s.mode ≠ .encReady then s.raise .badSequence
  else if ¬s.lenExists then .fault .lenBeyondBuffer
  else if ¬s.wordsExist then .fault .noSuchIndex
  else { s with idx := s.unpacked, buf := Memory.zeroed, mode := .idle }.respond .ok (s.ms.setWidth 32)

end Sys2Proof.Machine
end

