-- ==== Sys2Proof/Machine/System.lean ====
section
/-! DEFINITION. Family 45: `WIPE` and `STAT` (45_system.md). -/

namespace Sys2Proof.Machine

/-- Every piece of state at 0 (45_system.md R220); what stands at the ports is not the block's state. -/
def State.wiped (s : State) : State :=
  { s with
    buf := Memory.zeroed, idx := idxZeroed, digest := Vector.replicate Config.digestBytes 0
    len := 0, cs := 0, ms := 0, mode := .idle
    csb := 0, obs := 0, csok := false, vfd := false, err := .ok }

/-- `WIPE` (45_system.md R220). -/
def execWipe (s : State) : Host.Outcome State Fault Refusal := s.wiped.respond .ok 0

/-- `STAT sel` (45_system.md R221). -/
def execStat (sel : Nat) (s : State) : Host.Outcome State Fault Refusal :=
  if ¬selectorOk sel then s.raise .badAddress
  else if sel = 0 then s.respond .ok s.status
  else s.respond .ok s.aux

end Sys2Proof.Machine
end

