-- ==== Sys2Proof/Machine/Dispatch.lean ====
section
/-! DEFINITION. The meaning of each command, one arm per constructor (30_encoding.md R91). -/

namespace Sys2Proof.Machine

/-- Execute one command whole (10_state.md R41). -/
def exec (i : Instr) (s : State) : Host.Outcome State Fault Refusal :=
  match i with
  -- 40_bitpacker.md
  | .rd11 off => Sys2Proof.Machine.execRd11 off s
  | .wr11 val off => Sys2Proof.Machine.execWr11 val off s
  -- 41_checksum.md
  | .csapp => Sys2Proof.Machine.execCsapp s
  | .csvfy => Sys2Proof.Machine.execCsvfy s
  -- 42_encoder.md
  | .cfge n => Sys2Proof.Machine.execCfge n s
  | .unpk => Sys2Proof.Machine.execUnpk s
  -- 43_decoder.md
  | .cfgd ms => Sys2Proof.Machine.execCfgd ms s
  | .pack => Sys2Proof.Machine.execPack s
  -- 44_buffer_access.md
  | .setlen n => Sys2Proof.Machine.execSetlen n s
  | .putb a d => Sys2Proof.Machine.execPutb a d s
  | .getb a => Sys2Proof.Machine.execGetb a s
  | .puti wi val => Sys2Proof.Machine.execPuti wi val s
  | .geti wi => Sys2Proof.Machine.execGeti wi s
  -- 45_system.md
  | .wipe => Sys2Proof.Machine.execWipe s
  | .stat sel => Sys2Proof.Machine.execStat sel s

end Sys2Proof.Machine
end

