-- ==== Sys2Proof/Machine/Step.lean ====
section
/-! DEFINITION. One step: the block takes the oldest pending move of the host (10_state.md R41, R42, R45). -/

namespace Sys2Proof.Machine

/-- A command word, in the state that accepted it: decode it (30_encoding.md R103) and execute it whole, or end
it as an illegal word (R98). The decode check comes before every other (60_exceptions.md R242). -/
def runCommand (w : Word) (s : State) : Host.Outcome State Fault Refusal :=
  match decode w with
  | .ok i => exec i s
  | .error _ => s.illegalCommand

/-- One step of the machine (10_state.md R42; log 1): the oldest pending move of the host is taken; with none
pending the state does not change. -/
def step (s : State) : Host.Outcome State Fault Refusal :=
  match s.host with
  | [] => .next s.wait
  | .rst :: rest => .next (s.assertRst rest)
  | .command w :: rest => runCommand w (s.accept rest)

/-- `s` with the command word `w` presented as the host's next move, so that the next step runs it (log 9).
A command is one word of 32 bits; the bits of `w` from `nbits` up are 0. -/
def State.withFetchWord (s : State) (nbits w : Nat) : State :=
  s.present (BitVec.ofNat 32 (w % 2 ^ nbits))

end Sys2Proof.Machine
end

