-- ==== Sys2Proof/Machine/Asm.lean ====
section
/-! DEFINITION. The assembler notation of 30_encoding.md R100: mnemonic, a space, operands separated by a comma
and a space; decimal or 0x numbers; one command a line; a comment after a semicolon. -/

namespace Sys2Proof.Machine

/-- A command in the notation of R100, numbers in decimal. -/
def asmText : Instr → String
  | .rd11 off => "RD11 " ++ toString off
  | .wr11 val off => "WR11 " ++ toString val.toNat ++ ", " ++ toString off
  | .csapp => "CSAPP"
  | .csvfy => "CSVFY"
  | .cfge n => "CFGE " ++ toString n
  | .unpk => "UNPK"
  | .cfgd ms => "CFGD " ++ toString ms
  | .pack => "PACK"
  | .setlen n => "SETLEN " ++ toString n
  | .putb a d => "PUTB " ++ toString a ++ ", " ++ toString d.toNat
  | .getb a => "GETB " ++ toString a
  | .puti wi val => "PUTI " ++ toString wi ++ ", " ++ toString val.toNat
  | .geti wi => "GETI " ++ toString wi
  | .wipe => "WIPE"
  | .stat sel => "STAT " ++ toString sel

/-- The value of one digit: 0 to 9, and A to F in either case. -/
def digitValue (c : Char) : Option Nat :=
  let n := c.toNat
  if 48 ≤ n ∧ n ≤ 57 then some (n - 48)
  else if 65 ≤ n ∧ n ≤ 70 then some (n - 55)
  else if 97 ≤ n ∧ n ≤ 102 then some (n - 87)
  else none

/-- Digits of a base, after the value read so far. -/
def digitsFrom (base acc : Nat) : List Char → Option Nat
  | [] => some acc
  | c :: cs =>
    match digitValue c with
    | some d => if d < base then digitsFrom base (acc * base + d) cs else none
    | none => none

/-- A number: decimal, or hexadecimal with 0x (R100). -/
def parseNumber : List Char → Option Nat
  | [] => none
  | '0' :: 'x' :: [] => none
  | '0' :: 'x' :: cs => digitsFrom 16 0 cs
  | cs => digitsFrom 10 0 cs

/-- The line without its comment. -/
def dropComment (cs : List Char) : List Char := cs.takeWhile fun c => c ≠ ';'

/-- The line without the spaces at its end. -/
def dropTrailing (cs : List Char) : List Char := (cs.reverse.dropWhile fun c => c = ' ').reverse

/-- The operands of a line: numbers separated by a comma and a space. -/
def parseOperands (acc : List Char) : List Char → Option (List Nat)
  | [] => (parseNumber acc).map fun n => [n]
  | ',' :: ' ' :: cs => (parseNumber acc).bind fun n => (parseOperands [] cs).map fun ns => n :: ns
  | c :: cs => parseOperands (acc ++ [c]) cs

/-- The command of a mnemonic and its operands, if the operands fit their fields. -/
def assemble (mnemonic : List Char) (ops : List Nat) : Option Instr :=
  match String.ofList mnemonic, ops with
  | "RD11", [off] => fits (.rd11 off)
  | "WR11", [val, off] => if val < 2048 then fits (.wr11 (BitVec.ofNat 11 val) off) else none
  | "CSAPP", [] => some .csapp
  | "CSVFY", [] => some .csvfy
  | "CFGE", [n] => fits (.cfge n)
  | "UNPK", [] => some .unpk
  | "CFGD", [ms] => fits (.cfgd ms)
  | "PACK", [] => some .pack
  | "SETLEN", [n] => fits (.setlen n)
  | "PUTB", [a, d] => if d < 256 then fits (.putb a (BitVec.ofNat 8 d)) else none
  | "GETB", [a] => fits (.getb a)
  | "PUTI", [wi, val] => if val < 2048 then fits (.puti wi (BitVec.ofNat 11 val)) else none
  | "GETI", [wi] => fits (.geti wi)
  | "WIPE", [] => some .wipe
  | "STAT", [sel] => fits (.stat sel)
  | _, _ => none
where
  /-- The command, if a word encodes it. -/
  fits (i : Instr) : Option Instr := if (decode (encode i)).toOption = some i then some i else none

/-- The command of one line of R100; none for a line that is not one command. -/
def parseLine (line : String) : Option Instr :=
  let cs := dropTrailing (dropComment line.toList)
  match cs.dropWhile fun c => c ≠ ' ' with
  | [] => assemble cs []
  | _ :: rest => (parseOperands [] rest).bind (assemble (cs.takeWhile fun c => c ≠ ' '))

end Sys2Proof.Machine
end

