-- ==== Sys2Proof/Machine/Flow.lean ====
section
/-! DEFINITION. The two pseudo-instructions `ENCODE` and `VALIDATE` and the host that issues a flow, stopping at
the first non-zero status (30_encoding.md R101). -/

namespace Sys2Proof.Machine

/-- `PUTB i, b` for the bytes from address `i` on. -/
def putBytes (i : Nat) : List Byte → List Instr
  | [] => []
  | b :: bs => .putb i b :: putBytes (i + 1) bs

/-- `PUTI i, v` for the indices from register `i` on. -/
def putIndices (i : Nat) : List Index → List Instr
  | [] => []
  | v :: vs => .puti i v :: putIndices (i + 1) vs

/-- `ENCODE b0, b1, ...` (30_encoding.md R101). -/
def encodeFlow (bs : List Byte) : List Instr := .cfge bs.length :: putBytes 0 bs ++ [.csapp, .unpk]

/-- `VALIDATE v0, v1, ...` up to `PACK`: the part after which a host may read the entropy (R101). -/
def packFlow (vs : List Index) : List Instr := .cfgd vs.length :: putIndices 0 vs ++ [.pack]

/-- `VALIDATE v0, v1, ...` (30_encoding.md R101). -/
def validateFlow (vs : List Index) : List Instr := packFlow vs ++ [.csvfy]

/-- The host presents one command, and the block runs it. -/
def issue (i : Instr) (s : State) : Host.Outcome State Fault Refusal := step (s.present (encode i))

/-- The last command answered `OK`. -/
def State.answeredOk (s : State) : Bool := s.rsp.any fun r => r.st = .ok

/-- The host issues the commands in turn, and stops at the first that answers a non-zero status (R101). -/
def runFlow : List Instr → State → Host.Outcome State Fault Refusal
  | [], s => .next s
  | i :: is, s =>
    match issue i s with
    | .next t => if t.answeredOk then runFlow is t else .next t
    | .fault r => .fault r
    | .refused r => .refused r

end Sys2Proof.Machine
end

