-- ==== Sys2Proof/Machine/Ports.lean ====
section
/-! DEFINITION. The ports as wires (10_state.md R40), read off the state between commands: views, no storage.
`rst` and the handshake are the host's moves and the step itself (R41, R45).

DESIGN CHOICE (log 18): the spec does not say what a data signal carries while its valid bit is 0. Each view of one
shows 0 there, and that 0 means nothing: on `rsp_st` it is no `OK`. -/

namespace Sys2Proof.Machine

/-- Bytes on a 256-bit port: byte `i` in bits `255-8i : 248-8i`, absent bytes 0 (10_state.md R40). -/
def busOf (bs : List Byte) : BitVec 256 :=
  (List.range Config.digestBytes).foldl (fun acc i => acc <<< 8 ||| (bs[i]?.getD 0).setWidth 256) 0

/-- `cmd_valid`: the host presents a command word. -/
def State.cmdValid (s : State) : Bool :=
  match s.host with
  | .command _ :: _ => true
  | _ => false

/-- `cmd`: the command word presented. Without `cmd_valid`: 0, DESIGN CHOICE (log 18). -/
def State.cmd (s : State) : Word :=
  match s.host with
  | .command w :: _ => w
  | _ => 0

/-- `cmd_ready`: between commands the block always takes the next one (10_state.md R41). -/
def State.cmdReady (_ : State) : Bool := true

/-- `rsp_valid`: the last command has answered. -/
def State.rspValid (s : State) : Bool := s.rsp.isSome

/-- `rsp_st`: the 4-bit status code of the response (60_exceptions.md R230). Without `rsp_valid`: 0, which is then no
`OK`, DESIGN CHOICE (log 18). -/
def State.rspSt (s : State) : BitVec 4 := (s.rsp.map fun r => r.st.code).getD 0

/-- `rsp_data`: the data word of the response. Without `rsp_valid`: 0, DESIGN CHOICE (log 18). -/
def State.rspData (s : State) : Word := (s.rsp.map Response.data).getD 0

/-- `sha_req_valid`: the last command made a hash request. -/
def State.shaReqValid (s : State) : Bool := s.hash.isSome

/-- `sha_req_len`: the message length in bytes. Without `sha_req_valid`: 0, DESIGN CHOICE (log 18). -/
def State.shaReqLen (s : State) : BitVec 6 := (s.hash.map fun x => BitVec.ofNat 6 x.msg.length).getD 0

/-- `sha_req_msg`: the message, its first byte on top, bytes from `sha_req_len` on 0 (R40). Without `sha_req_valid`: 0,
DESIGN CHOICE (log 18). -/
def State.shaReqMsg (s : State) : BitVec 256 := (s.hash.map fun x => busOf x.msg).getD 0

/-- `sha_rsp_valid`: the engine has answered the last request. It always answers (log 3). -/
def State.shaRspValid (s : State) : Bool := s.hash.isSome

/-- `sha_rsp_digest`: the digest answered, its first byte on top. Without `sha_rsp_valid`: 0, DESIGN CHOICE (log 18). -/
def State.shaRspDigest (s : State) : BitVec 256 := (s.hash.map fun x => busOf x.digest.toList).getD 0

end Sys2Proof.Machine
end

