-- ==== Sys2Proof/Safety.lean ====
section
/-! DEFINITION. What counts as a safe state and a safe run, in the terms the statements use: the invariants of
10_state.md R37, and what it means for a host not to see the bytes beyond `LEN` (R21, R36). -/

namespace Sys2Proof.Machine

/-- `CS` is 0 or one of 4 to 8 (10_state.md R23, R37). -/
abbrev State.csLegal (s : State) : Prop := s.cs.toNat = 0 ∨ 4 ≤ s.cs.toNat ∧ s.cs.toNat ≤ 8

/-- What each flow phase says of the configuration (10_state.md R37). -/
abbrev State.modeLegal (s : State) : Prop :=
  (s.mode = .encLoad → 4 ≤ s.cs.toNat ∧ s.len.toNat = 4 * s.cs.toNat) ∧
  (s.mode = .encReady → 4 ≤ s.cs.toNat ∧ s.len.toNat = 4 * s.cs.toNat + 1) ∧
  (s.mode = .dec → 4 ≤ s.cs.toNat ∧ s.len.toNat = 4 * s.cs.toNat + 1)

/-- The invariants of 10_state.md R37, with the canonical form of the buffer (log 5). That `MS` is 0, 12, 15, 18,
21 or 24 follows from `csLegal` and `MS = 3*CS`; that an index is at most 2047 is its type. -/
abbrev State.Inv (s : State) : Prop :=
  s.buf.wf ∧ s.len.toNat ≤ 33 ∧ s.digest = Vector.replicate 32 0 ∧ s.csLegal ∧ s.ms.toNat = 3 * s.cs.toNat ∧
  s.modeLegal ∧ (s.vfd = false → s.csok = false)

/-- The twelve pieces of state of 10_state.md agree; what stands at the ports may differ. -/
abbrev State.sameBlock (s t : State) : Prop :=
  s = { t with host := s.host, rsp := s.rsp, hash := s.hash }

/-- `t` is `s` but for the bytes of `BUF` at and above `LEN` (10_state.md R36). -/
abbrev State.sameBelowLen (s t : State) : Prop :=
  t = { s with buf := t.buf } ∧ ∀ a < s.len.toNat, t.buf.read a = s.buf.read a

/-- What error entry leaves (60_exceptions.md R240): nothing changed but `ERR`, which takes the code if it was 0, and
the response `(code, 0)`. -/
abbrev State.errorEntry (s : State) (code : Status) : State :=
  { s with err := if s.err = .ok then code else s.err, rsp := some ⟨code, 0⟩ }

/-- The must-be-zero bits of each opcode's format, with the operand fields its command does not use
(30_encoding.md R92 to R96; 93_implementation_defined.md V2, V3). Opcode 0 has no format. -/
def mustBeZero (op : BitVec 4) : Word :=
  if op = 1 then 0x0FFFFE00
  else if op = 2 then 0x0FF00000
  else if op = 5 ∨ op = 7 ∨ op = 9 ∨ op = 15 then 0x0FFFFFC0
  else if op = 10 then 0x0FFFC000
  else if op = 11 then 0x0FFFC0FF
  else if op = 12 then 0x0FFF0000
  else if op = 13 then 0x0FFF07FF
  else 0x0FFFFFFF

/-- A command word with opcode `op` runs as the command `build w`, and as an illegal word if one of the bits `zeros`
is 1 (30_encoding.md R91 to R98). -/
abbrev commandWords (op : BitVec 4) (zeros : Word) (build : Word → Instr) : Prop :=
  ∀ (w : Word) (s : State) (rest : List HostMove), s.host = .command w :: rest → w.extractLsb' 28 4 = op →
    step s = if w &&& zeros = 0 then exec (build w) (s.accept rest)
      else .next ((s.accept rest).errorEntry .illegalCommand)

/-- The status codes each command can answer (60_exceptions.md R230, column "raised by"). -/
def statusesOf : Instr → List Status
  | .rd11 _ => [.ok, .badOffset]
  | .wr11 _ _ => [.ok, .badOffset]
  | .csapp => [.ok, .badSequence]
  | .csvfy => [.ok, .badSequence, .invalidChecksum]
  | .cfge _ => [.ok, .entropyTooLow, .entropyTooHigh, .entropyNotAligned]
  | .unpk => [.ok, .badSequence]
  | .cfgd _ => [.ok, .invalidWordCount]
  | .pack => [.ok, .badSequence]
  | .setlen _ => [.ok, .badAddress]
  | .putb _ _ => [.ok, .badAddress]
  | .getb _ => [.ok, .badAddress]
  | .puti _ _ => [.ok, .badAddress]
  | .geti _ => [.ok, .badAddress]
  | .wipe => [.ok]
  | .stat _ => [.ok, .badAddress]

/-- The word counts a mnemonic may have (43_decoder.md R182). -/
def legalWordCounts : List Nat := [12, 15, 18, 21, 24]

/-- The entropy lengths in bytes (42_encoder.md R162). -/
def legalEntropyBytes : List Nat := [16, 20, 24, 28, 32]

/-- A flow whose last command answered `OK`. -/
def endsOk : Host.Outcome State Fault Refusal → Bool
  | .next t => t.answeredOk
  | .fault _ => false
  | .refused _ => false

end Sys2Proof.Machine
end

