-- ==== Sys2Proof/Certificates/Slice0/Obligations.lean ====
section
/-! DEFINITION. The statements for the provers, in the order of the spec's files. Each docstring names the rule it
formalises, or says which log entry it rests on. -/

open Sys2Proof Sys2Proof.Machine

/-! ### Encoding (30_encoding.md) -/

/-- Words written out from the spec's encodings, one of each command and two illegal ones (30_encoding.md R92 to R98,
R100; 95_test_vectors.md). -/
def Obligations.SpecWordsDecode : Prop :=
  decode 0x10000007 = .ok (.rd11 7) ∧ decode 0x200AAA07 = .ok (.wr11 0x555 7) ∧
  decode 0x30000000 = .ok .csapp ∧ decode 0x40000000 = .ok .csvfy ∧
  decode 0x50000010 = .ok (.cfge 16) ∧ decode 0x60000000 = .ok .unpk ∧
  decode 0x7000000C = .ok (.cfgd 12) ∧ decode 0x80000000 = .ok .pack ∧
  decode 0x90000003 = .ok (.setlen 3) ∧ decode 0xA0000F80 = .ok (.putb 15 0x80) ∧
  decode 0xB0001000 = .ok (.getb 16) ∧ decode 0xC0005804 = .ok (.puti 11 4) ∧
  decode 0xD0005800 = .ok (.geti 11) ∧ decode 0xE0000000 = .ok .wipe ∧
  decode 0xF0000001 = .ok (.stat 1) ∧
  decode 0x00000000 = .error .reservedOpcode ∧ decode 0x10000200 = .error .mustBeZeroBit

/-- Decoding the word of a well-formed command gives the command back, with every operand at every value its field
admits (30_encoding.md R97, R100, R103). -/
def Obligations.DecodeOfEncode : Prop :=
  ∀ i : Instr, WellFormed i → decode (encode i) = .ok i

/-- Each legal word has one reading: it is the encoding of the well-formed command it decodes to
(30_encoding.md R97, R103). -/
def Obligations.EncodeOfDecode : Prop :=
  ∀ (w : Word) (i : Instr), decode w = .ok i → WellFormed i ∧ encode i = w

/-- 30_encoding.md R103 (with the operand fields of R97): the table, row by row; a word that matches a row is that row's
command; at most one row matches; a word that matches none is illegal. -/
def Obligations.DecodeFollowsTheTable : Prop :=
  opcodeTable =
    [⟨0x10000000, 0xFFFFFE00, fun w => .rd11 (w.extractLsb' 0 9).toNat⟩,
     ⟨0x20000000, 0xFFF00000, fun w => .wr11 (w.extractLsb' 9 11) (w.extractLsb' 0 9).toNat⟩,
     ⟨0x30000000, 0xFFFFFFFF, fun _ => .csapp⟩, ⟨0x40000000, 0xFFFFFFFF, fun _ => .csvfy⟩,
     ⟨0x50000000, 0xFFFFFFC0, fun w => .cfge (w.extractLsb' 0 6).toNat⟩, ⟨0x60000000, 0xFFFFFFFF, fun _ => .unpk⟩,
     ⟨0x70000000, 0xFFFFFFC0, fun w => .cfgd (w.extractLsb' 0 6).toNat⟩, ⟨0x80000000, 0xFFFFFFFF, fun _ => .pack⟩,
     ⟨0x90000000, 0xFFFFFFC0, fun w => .setlen (w.extractLsb' 0 6).toNat⟩,
     ⟨0xA0000000, 0xFFFFC000, fun w => .putb (w.extractLsb' 8 6).toNat (w.extractLsb' 0 8)⟩,
     ⟨0xB0000000, 0xFFFFC0FF, fun w => .getb (w.extractLsb' 8 6).toNat⟩,
     ⟨0xC0000000, 0xFFFF0000, fun w => .puti (w.extractLsb' 11 5).toNat (w.extractLsb' 0 11)⟩,
     ⟨0xD0000000, 0xFFFF07FF, fun w => .geti (w.extractLsb' 11 5).toNat⟩, ⟨0xE0000000, 0xFFFFFFFF, fun _ => .wipe⟩,
     ⟨0xF0000000, 0xFFFFFFC0, fun w => .stat (w.extractLsb' 0 6).toNat⟩] ∧
  ∀ w : Word,
    (∀ r ∈ opcodeTable, w &&& r.mask = r.pattern → decode w = .ok (r.build w)) ∧
    (opcodeTable.Pairwise fun r q => ¬(w &&& r.mask = r.pattern ∧ w &&& q.mask = q.pattern)) ∧
    ((∀ r ∈ opcodeTable, w &&& r.mask ≠ r.pattern) → ∃ e, decode w = .error e)

/-- 60_exceptions.md R236: `IllegalCommand` is the end of exactly the words with opcode 0 or a 1 in a must-be-zero bit,
by error entry, before any other check. -/
def Obligations.IllegalWordsEndInIllegalCommand : Prop :=
  ∀ w : Word,
    ((∃ e, decode w = .error e) ↔
      w.extractLsb' 28 4 = 0 ∨ w &&& mustBeZero (w.extractLsb' 28 4) ≠ 0) ∧
    ∀ (e : Illegal) (s : State) (rest : List HostMove), decode w = .error e → s.host = .command w :: rest →
      step s = .next { s with err := if s.err = .ok then .illegalCommand else s.err,
                              host := rest, rsp := some ⟨.illegalCommand, 0⟩, hash := none }

/-- How many words are commands (30_encoding.md R98, "The count"). -/
def Obligations.LegalWordCount : Prop :=
  ((Finset.range (2 ^ 32)).filter fun n => (decode (BitVec.ofNat 32 n)).toOption.isSome).card = 1131365

/-! ### The step (10_state.md section 8) -/

/-- A step runs the decoded command: the block takes the oldest pending move, and what it adds around `exec` is that
the move is gone and the response and hash exchange of the command before have left the ports (log 1, log 2). -/
def Obligations.StepRunsTheDecodedCommand : Prop :=
  ∀ (s : State) (w : Word) (rest : List HostMove) (i : Instr),
    s.host = .command w :: rest → decode w = .ok i →
    step s = exec i { s with host := rest, rsp := none, hash := none }

/-- With no move pending the state does not change (10_state.md R41, second part; that presenting nothing is a step is
the model's choice, log 1). -/
def Obligations.WaitingChangesNothing : Prop :=
  ∀ s : State, s.host = [] → step s = .next s

/-- 70_reset_and_hazards.md R270: after `rst` and after `WIPE`, from any state, every piece of state has its reset value, and `STATUS` and
`AUX` read 0. -/
def Obligations.TheResetState : Prop :=
  ∀ (s : State) (rest : List HostMove), s.host = .rst :: rest ∨ s.host = .command 0xE0000000 :: rest →
    ∃ t, step s = .next t ∧ (∀ a, t.buf.read a = 0) ∧ t.len = 0 ∧ (∀ i < 24, idxGet t.idx i = 0) ∧ t.cs = 0 ∧
      t.ms = 0 ∧ t.mode = .idle ∧ t.csb = 0 ∧ t.obs = 0 ∧ (∀ i : Fin 32, t.digest[i] = 0) ∧ t.err = .ok ∧
      t.csok = false ∧ t.vfd = false ∧ t.status = 0 ∧ t.aux = 0

/-- 70_reset_and_hazards.md R271: `rst` and `WIPE` leave the same twelve pieces of state, those of the reset state, from
any state; `WIPE` has the response `(0, 0)` and `rst` has none. -/
def Obligations.RstAndWipeAreEquivalent : Prop :=
  ∀ (s s' : State) (rest rest' : List HostMove), s.host = .rst :: rest → s'.host = .command 0xE0000000 :: rest' →
    ∃ t t', step s = .next t ∧ step s' = .next t' ∧ t.sameBlock State.reset ∧ t'.sameBlock State.reset ∧
      t.rsp = none ∧ t'.rsp = some ⟨.ok, 0⟩

/-- From a state that meets the invariants of 10_state.md R37, every command word has exactly one response, and takes
exactly one of the host's moves (10_state.md R41, R42). -/
def Obligations.OneResponsePerCommand : Prop :=
  ∀ (s : State) (w : Word) (rest : List HostMove), s.Inv → s.host = .command w :: rest →
    ∃ (t : State) (r : Response), step s = .next t ∧ t.rsp = some r ∧ t.host = rest

/-- What a command does does not depend on the moves the host makes after it (10_state.md R41; 70_reset_and_hazards.md
R280; the list of moves is the model's, log 1). -/
def Obligations.LaterMovesDoNotMatter : Prop :=
  ∀ (s t : State) (m : HostMove) (rest rest' : List HostMove), step { s with host := m :: rest } = .next t →
    step { s with host := m :: rest' } = .next { t with host := rest' }

/-- Every step keeps the invariants of 10_state.md R37, from every state that meets them (with the buffer's canonical
form, log 5). -/
def Obligations.EveryStepKeepsTheInvariants : Prop :=
  ∀ s t : State, s.Inv → step s = .next t → t.Inv

/-- The reset state meets the invariants of 10_state.md R37. -/
def Obligations.ResetMeetsTheInvariants : Prop := State.reset.Inv

/-- There is no halting command and no stuck state (10_state.md R42): from every state that meets the invariants, a run
of any length goes on, and ends in a state that meets them. -/
def Obligations.EveryRunGoesOn : Prop :=
  ∀ (k : Nat) (s : State), s.Inv → ∃ t : State, Host.Core.run Sys2Proof.core k s = .next t ∧ t.Inv

/-! ### The status words (10_state.md section 5) -/

/-- 10_state.md R32: the fields of `STATUS`, the word `STAT 0` returns, with nothing written; the code in the `MODE` field
is R25's. -/
def Obligations.StatusWordFields : Prop :=
  Mode.code .idle = 0 ∧ Mode.code .encLoad = 1 ∧ Mode.code .encReady = 2 ∧ Mode.code .dec = 3 ∧
  ∀ s : State,
    s.status.extractLsb' 0 4 = s.err.code ∧ s.status.extractLsb' 4 2 = s.mode.code ∧
    s.status.extractLsb' 6 1 = BitVec.ofBool s.csok ∧ s.status.extractLsb' 7 1 = BitVec.ofBool s.vfd ∧
    s.status.extractLsb' 8 6 = s.len ∧ s.status.extractLsb' 14 5 = s.ms ∧ s.status.extractLsb' 19 4 = s.cs ∧
    s.status.extractLsb' 23 9 = 0 ∧
    s.status.toNat = s.err.code.toNat + s.mode.code.toNat * 2 ^ 4 + s.csok.toNat * 2 ^ 6 + s.vfd.toNat * 2 ^ 7 +
      s.len.toNat * 2 ^ 8 + s.ms.toNat * 2 ^ 14 + s.cs.toNat * 2 ^ 19 ∧
    State.reset.status = 0 ∧ exec (.stat 0) s = .next { s with rsp := some ⟨.ok, s.status⟩ }

/-- 10_state.md R33: the fields of `AUX`, the word `STAT 1` returns, with nothing written. -/
def Obligations.AuxWordFields : Prop :=
  ∀ s : State,
    s.aux.extractLsb' 0 8 = s.csb ∧ s.aux.extractLsb' 8 8 = s.obs ∧ s.aux.extractLsb' 16 16 = 0 ∧
    s.aux.toNat = s.csb.toNat + s.obs.toNat * 2 ^ 8 ∧ State.reset.aux = 0 ∧
    exec (.stat 1) s = .next { s with rsp := some ⟨.ok, s.aux⟩ }

/-! ### The field primitives (20_memory.md, 40_bitpacker.md) -/

/-- 40_bitpacker.md R121: inside its precondition, `read11` is the sum of the 11 bits at `off` to `off + 10`, the first
most significant. -/
def Obligations.ReadFieldIsTheSumOfItsBits : Prop :=
  ∀ (m : Memory) (len off : Nat), off + 11 ≤ 8 * len →
    (m.read11 len off).toNat = ∑ j ∈ Finset.range 11, (m.bit (off + 10 - j)).toNat <<< j

/-- 20_memory.md R64: the first two bytes of a field lie below `LEN`; when the third lies at or beyond it, the field starts
at one of the first six bits of its byte, 0 stands in the window, no value in its place reaches the result of `read11`,
and the OR mask of `write11` is 0 there; and no byte at or beyond `LEN` is ever written. -/
def Obligations.GuardedByteNeverReachesAResult : Prop :=
  ∀ (m : Memory) (len off : Nat), m.wf → len ≤ 33 → off + 11 ≤ 8 * len →
    off / 8 + 1 < len ∧
    (len ≤ off / 8 + 2 → off % 8 ≤ 5 ∧ (m.window len (off / 8)).extractLsb' 0 8 = 0 ∧ ∀ (x : Byte) (v : Index),
      m.read11 len off = windowField (m.read (off / 8) ++ m.read (off / 8 + 1) ++ x) (off % 8) ∧
      (placeField v (off % 8)).extractLsb' 0 8 = 0) ∧
    ∀ (v : Index) (a : Nat), len ≤ a → (m.write11 len v off).read a = m.read a

/-- 40_bitpacker.md R123: `write11` bit by bit. The field's bits become old OR new, every other bit is unchanged, a third
byte that the field does not reach keeps its value, and the greatest byte written is 32. -/
def Obligations.WriteFieldBitByBit : Prop :=
  ∀ (m : Memory) (len off : Nat) (v : Index), m.wf → len ≤ 33 → off + 11 ≤ 8 * len →
    (∀ j ≤ 10, (m.write11 len v off).bit (off + 10 - j) = (m.bit (off + 10 - j) || v.getLsbD j)) ∧
    (∀ o, o < off ∨ off + 10 < o → (m.write11 len v off).bit o = m.bit o) ∧
    (off % 8 ≤ 5 → (placeField v (off % 8)).extractLsb' 0 8 = 0 ∧
      (m.write11 len v off).read (off / 8 + 2) = m.read (off / 8 + 2)) ∧
    (∀ a, (m.write11 len v off).read a ≠ m.read a → a ≤ 32)

/-- 40_bitpacker.md R127: (a) read after write, (b) writing 0, (c) two writes at one offset, in either order, (d) fields
apart, (e) fields that overlap. -/
def Obligations.FieldLaws : Prop :=
  ∀ (m : Memory) (len off : Nat) (v v' : Index), m.wf → len ≤ 33 → off + 11 ≤ 8 * len →
    (m.write11 len v off).read11 len off = m.read11 len off ||| v ∧
    (m.read11 len off = 0 → (m.write11 len v off).read11 len off = v) ∧
    m.write11 len 0 off = m ∧
    ((m.write11 len v off).write11 len v' off).read11 len off = m.read11 len off ||| v ||| v' ∧
    (m.write11 len v off).write11 len v' off = (m.write11 len v' off).write11 len v off ∧
    ∀ off', off' + 11 ≤ 8 * len →
      (off' + 10 < off ∨ off + 10 < off' → (m.write11 len v off).read11 len off' = m.read11 len off') ∧
      ∀ j ≤ 10, ((m.write11 len v off).read11 len off').getLsbD j =
        ((m.read11 len off').getLsbD j ||
          (decide (off ≤ off' + 10 - j ∧ off' + 10 - j ≤ off + 10) && v.getLsbD (off + 10 - (off' + 10 - j))))

/-- 20_memory.md R71: the order of the word numbers inside `UNPK` and `PACK` cannot be observed; every order gives the
index file and the buffer of the ascending one. -/
def Obligations.OrderInsideALoopIsFree : Prop :=
  ∀ (m : Memory) (len n : Nat) (x : IndexFile) (order : List Nat), m.wf → len ≤ 33 → n ≤ 24 → 11 * n ≤ 8 * len →
    order.Perm (List.range n) →
    order.foldl (fun y wi => idxPut y wi (m.read11 len (11 * wi))) x = unpackLoop m len x n ∧
    order.foldl (fun b wi => b.write11 len (idxGet x wi) (11 * wi)) m = packLoop m len x n

/-- 40_bitpacker.md R125: `RD11`, its words, its bounds check and the field it reads. -/
def Obligations.Rd11ReadsAField : Prop :=
  commandWords 0x1 0x0FFFFE00 (fun w => .rd11 (w.extractLsb' 0 9).toNat) ∧
  ∀ (off : Nat) (s : State), s.len.toNat ≤ 33 →
    (8 * s.len.toNat < off + 11 → exec (.rd11 off) s = .next (s.errorEntry .badOffset)) ∧
    (off + 11 ≤ 8 * s.len.toNat → ∃ v : Index,
      exec (.rd11 off) s = .next { s with rsp := some ⟨.ok, v.setWidth 32⟩ } ∧
      ∀ j ≤ 10, v.getLsbD j = s.buf.bit (off + 10 - j))

/-- 40_bitpacker.md R126: `WR11`, its words, its bounds check and the field it ORs into. -/
def Obligations.Wr11OrsAField : Prop :=
  commandWords 0x2 0x0FF00000 (fun w => .wr11 (w.extractLsb' 9 11) (w.extractLsb' 0 9).toNat) ∧
  ∀ (val : Index) (off : Nat) (s : State), s.len.toNat ≤ 33 → s.buf.wf →
    (8 * s.len.toNat < off + 11 → exec (.wr11 val off) s = .next (s.errorEntry .badOffset)) ∧
    (off + 11 ≤ 8 * s.len.toNat → ∃ t, exec (.wr11 val off) s = .next t ∧
      (∀ j ≤ 10, t.buf.bit (off + 10 - j) = (s.buf.bit (off + 10 - j) || val.getLsbD j)) ∧
      (∀ o, o < off ∨ off + 10 < o → t.buf.bit o = s.buf.bit o) ∧
      (∀ a, a < off / 8 ∨ off / 8 + 2 < a ∨ s.len.toNat ≤ a → t.buf.read a = s.buf.read a) ∧
      t = { s with buf := t.buf, rsp := some ⟨.ok, 0⟩ })

/-! ### The checksum extractor (41_checksum.md) -/

/-- 41_checksum.md R146: `csmask` has 1s in exactly the top `CS` bits; its five values; and where `CSVFY` evaluates it, in
mode `DEC`, `CS` is one of 4 to 8. -/
def Obligations.ChecksumMask : Prop :=
  (∀ cs : BitVec 4, 4 ≤ cs.toNat → cs.toNat ≤ 8 → ∀ j < 8, (csmask cs).getLsbD j = decide (8 - cs.toNat ≤ j)) ∧
  csmask 4 = 0xF0 ∧ csmask 5 = 0xF8 ∧ csmask 6 = 0xFC ∧ csmask 7 = 0xFE ∧ csmask 8 = 0xFF ∧
  ∀ s : State, s.Inv → s.mode = .dec → 4 ≤ s.cs.toNat ∧ s.cs.toNat ≤ 8

/-- 41_checksum.md R147: two bytes agree in their checksum bits when they agree under the mask, which is when their top
`CS` bits are equal; the low bits never matter. -/
def Obligations.CompareUsesTheTopBitsOnly : Prop :=
  ∀ (cs : BitVec 4) (x y : Byte), 4 ≤ cs.toNat → cs.toNat ≤ 8 →
    (checksumAgrees cs x y = true ↔ x &&& csmask cs = y &&& csmask cs) ∧
    (checksumAgrees cs x y = true ↔ x >>> (8 - cs.toNat) = y >>> (8 - cs.toNat))

/-- 41_checksum.md R143 (with the message of R140, the byte of R141, the zeroing of R142 and the whole byte of R144):
`CSAPP`. The digest is whatever Sha256 gives (log 3). -/
def Obligations.CsappAppendsTheChecksumByte : Prop :=
  commandWords 0x3 0x0FFFFFFF (fun _ => .csapp) ∧
  ∀ s : State, s.buf.wf →
    (s.mode ≠ .encLoad → exec .csapp s = .next (s.errorEntry .badSequence)) ∧
    (s.mode = .encLoad → 4 * s.cs.toNat ≤ 32 → ∃ t, exec .csapp s = .next t ∧
      t.hash = some ⟨(List.range (4 * s.cs.toNat)).map s.buf.read,
        Config.sha256 ((List.range (4 * s.cs.toNat)).map s.buf.read)⟩ ∧
      t.csb = (Config.sha256 ((List.range (4 * s.cs.toNat)).map s.buf.read))[0] ∧
      t.digest = Vector.replicate 32 0 ∧
      (∀ a, t.buf.read a = if a = 4 * s.cs.toNat then t.csb else s.buf.read a) ∧
      t.len.toNat = 4 * s.cs.toNat + 1 ∧ t.mode = .encReady ∧ t.rsp = some ⟨.ok, t.csb.setWidth 32⟩ ∧
      t = { s with buf := t.buf, len := t.len, mode := t.mode, csb := t.csb, digest := t.digest, rsp := t.rsp,
                   hash := t.hash })

/-- 41_checksum.md R145 (with R148 and R149): `CSVFY`, on both outcomes. `InvalidChecksum` comes after the effects, which
are those of the other outcome. -/
def Obligations.CsvfyComparesAndZeroes : Prop :=
  commandWords 0x4 0x0FFFFFFF (fun _ => .csvfy) ∧
  ∀ s : State,
    (s.mode ≠ .dec → exec .csvfy s = .next (s.errorEntry .badSequence)) ∧
    (s.mode = .dec → 4 ≤ s.cs.toNat → s.cs.toNat ≤ 8 → ∃ t, exec .csvfy s = .next t ∧
      t.hash = some ⟨(List.range (4 * s.cs.toNat)).map s.buf.read,
        Config.sha256 ((List.range (4 * s.cs.toNat)).map s.buf.read)⟩ ∧
      t.obs = s.buf.read (4 * s.cs.toNat) ∧
      t.csb = (Config.sha256 ((List.range (4 * s.cs.toNat)).map s.buf.read))[0] ∧
      t.digest = Vector.replicate 32 0 ∧
      (t.csok = true ↔ t.csb &&& csmask s.cs = t.obs &&& csmask s.cs) ∧ t.vfd = true ∧
      (∀ a, t.buf.read a = 0) ∧ t.mode = .idle ∧
      (t.csok = true → t.err = s.err ∧
        t.rsp = some ⟨.ok, t.obs.setWidth 32 <<< 8 ||| t.csb.setWidth 32⟩) ∧
      (t.csok = false → t.err = (if s.err = .ok then .invalidChecksum else s.err) ∧
        t.rsp = some ⟨.invalidChecksum, t.obs.setWidth 32 <<< 8 ||| t.csb.setWidth 32⟩) ∧
      t = { s with buf := t.buf, mode := t.mode, csb := t.csb, obs := t.obs, digest := t.digest, err := t.err,
                   csok := t.csok, vfd := t.vfd, rsp := t.rsp, hash := t.hash })

/-- Only `CSAPP` and `CSVFY` make a hash request, one each; the message is the entropy bytes `BUF[0..EB-1]` and nothing
else, its length one of the five (41_checksum.md R140); on the port, byte `i` is in bits `255-8i : 248-8i` and bytes
from the length on are 0 (10_state.md R40, R44; that the port is read off a field is log 2). -/
def Obligations.HashRequestIsTheEntropy : Prop :=
  ∀ (s t : State) (w : Word) (rest : List HostMove) (x : HashExchange), s.Inv → s.host = .command w :: rest →
    step s = .next t → t.hash = some x →
    (decode w = .ok .csapp ∧ s.mode = .encLoad ∨ decode w = .ok .csvfy ∧ s.mode = .dec) ∧
    x.msg = (List.range (4 * s.cs.toNat)).map s.buf.read ∧ x.msg.length ∈ legalEntropyBytes ∧
    x.digest = Config.sha256 x.msg ∧ t.shaReqLen.toNat = x.msg.length ∧
    ∀ i < 32, t.shaReqMsg.extractLsb' (248 - 8 * i) 8 = x.msg[i]?.getD 0

/-! ### Encoder side (42_encoder.md) -/

/-- 00_scope.md R7: the five legal configurations, computed by the formulas of both sides. -/
def Obligations.LegalConfigurations : Prop :=
  ∀ row ∈ [(16, 128, 4, 132, 12, 17, 0xF0#8), (20, 160, 5, 165, 15, 21, 0xF8#8), (24, 192, 6, 198, 18, 25, 0xFC#8),
      (28, 224, 7, 231, 21, 29, 0xFE#8), (32, 256, 8, 264, 24, 33, 0xFF#8)],
    encEnt row.1 = row.2.1 ∧ encCs row.1 = row.2.2.1 ∧ encEnt row.1 + encCs row.1 = row.2.2.2.1 ∧
    encMs row.1 = row.2.2.2.2.1 ∧ 11 * row.2.2.2.2.1 = row.2.2.2.1 ∧ decEnt row.2.2.2.2.1 = row.2.1 ∧
    decCs row.2.2.2.2.1 = row.2.2.1 ∧ decLen row.2.2.2.2.1 = row.2.2.2.2.2.1 ∧ row.1 + 1 = row.2.2.2.2.2.1 ∧
    csmask (BitVec.ofNat 4 row.2.2.1) = row.2.2.2.2.2.2

/-- 42_encoder.md R160 (with the arithmetic of R161 and the three errors, in order, of R162): `CFGE`. -/
def Obligations.CfgeConfiguresTheEncoder : Prop :=
  commandWords 0x5 0x0FFFFFC0 (fun w => .cfge (w.extractLsb' 0 6).toNat) ∧
  ∀ (n : Nat) (s : State),
    (8 * n < 128 → exec (.cfge n) s = .next (s.errorEntry .entropyTooLow)) ∧
    (256 < 8 * n → exec (.cfge n) s = .next (s.errorEntry .entropyTooHigh)) ∧
    (128 ≤ 8 * n → 8 * n ≤ 256 → 8 * n % 32 ≠ 0 → exec (.cfge n) s = .next (s.errorEntry .entropyNotAligned)) ∧
    (n ∈ legalEntropyBytes → ∃ t, exec (.cfge n) s = .next t ∧
      t.cs.toNat = 8 * n / 32 ∧ t.ms.toNat = (8 * n + 8 * n / 32) / 11 ∧ t.len.toNat = n ∧ t.mode = .encLoad ∧
      t.rsp = some ⟨.ok, t.ms.setWidth 32⟩ ∧
      t = { s with cs := t.cs, ms := t.ms, len := t.len, mode := t.mode, rsp := t.rsp })

/-- 42_encoder.md R163 (with the loop of R164): `UNPK`. The premises on `LEN` and `MS` hold in every state that meets the
invariants of 10_state.md R37. -/
def Obligations.UnpkExtractsTheWords : Prop :=
  commandWords 0x6 0x0FFFFFFF (fun _ => .unpk) ∧
  ∀ s : State,
    (s.mode ≠ .encReady → exec .unpk s = .next (s.errorEntry .badSequence)) ∧
    (s.mode = .encReady → s.len.toNat ≤ 33 → s.ms.toNat ≤ 24 → 11 * s.ms.toNat ≤ 8 * s.len.toNat →
      ∃ t, exec .unpk s = .next t ∧
      (∀ wi < s.ms.toNat, ∀ j ≤ 10, (idxGet t.idx wi).getLsbD j = s.buf.bit (11 * wi + 10 - j)) ∧
      (∀ wi, s.ms.toNat ≤ wi → wi < 24 → idxGet t.idx wi = 0) ∧ (∀ a, t.buf.read a = 0) ∧ t.mode = .idle ∧
      t.rsp = some ⟨.ok, s.ms.setWidth 32⟩ ∧
      t = { s with idx := t.idx, buf := t.buf, mode := t.mode, rsp := t.rsp })

/-- The checksum enters only the last word's low `CS` bits (42_encoder.md R166 (b)): with two digests in place of Sha256's,
the words `UNPK` reads after `CSAPP` are the same but for those bits, which are the digest's leading bits. -/
def Obligations.WordsDependOnTheEntropyAlone : Prop :=
  ∀ (s t t' : State) (d d' : Config.Digest), s.Inv → s.mode = .encLoad →
    csappEffect d s = .next t → csappEffect d' s = .next t' →
    (∀ wi, wi + 1 < s.ms.toNat → t.read11 (11 * wi) = t'.read11 (11 * wi)) ∧
    t.read11 (11 * (s.ms.toNat - 1)) >>> s.cs.toNat = t'.read11 (11 * (s.ms.toNat - 1)) >>> s.cs.toNat ∧
    (t.read11 (11 * (s.ms.toNat - 1))).toNat % 2 ^ s.cs.toNat = d[0].toNat / 2 ^ (8 - s.cs.toNat)

/-! ### Decoder side (43_decoder.md) -/

/-- 43_decoder.md R180 (with the arithmetic of R181), R182 (90_conflicts.md C1): `CFGD`, and that the two conditions of the
word-count test are together the stated set. -/
def Obligations.CfgdConfiguresTheDecoder : Prop :=
  commandWords 0x7 0x0FFFFFC0 (fun w => .cfgd (w.extractLsb' 0 6).toNat) ∧
  (∀ ms, ms ∈ legalWordCounts ↔ 11 * ms = 11 * ms * 32 / 33 + 11 * ms * 32 / 33 / 32 ∧
    128 ≤ 11 * ms * 32 / 33 ∧ 11 * ms * 32 / 33 ≤ 256) ∧
  ∀ (ms : Nat) (s : State),
    (ms ∉ legalWordCounts → exec (.cfgd ms) s = .next (s.errorEntry .invalidWordCount)) ∧
    (ms ∈ legalWordCounts → ∃ t, exec (.cfgd ms) s = .next t ∧
      t.cs.toNat = 11 * ms * 32 / 33 / 32 ∧ t.ms.toNat = ms ∧ t.len.toNat = (11 * ms + 7) / 8 ∧
      (∀ a, t.buf.read a = 0) ∧ t.mode = .dec ∧ t.rsp = some ⟨.ok, t.len.setWidth 32⟩ ∧
      t = { s with cs := t.cs, ms := t.ms, len := t.len, buf := t.buf, mode := t.mode, rsp := t.rsp })

/-- 43_decoder.md R183 (with the loop of R184): `PACK`. The premises on `LEN` and `MS` hold in every state that meets the
invariants of 10_state.md R37. -/
def Obligations.PackOrsTheWords : Prop :=
  commandWords 0x8 0x0FFFFFFF (fun _ => .pack) ∧
  ∀ s : State, s.buf.wf →
    (s.mode ≠ .dec → exec .pack s = .next (s.errorEntry .badSequence)) ∧
    (s.mode = .dec → s.len.toNat ≤ 33 → s.ms.toNat ≤ 24 → 11 * s.ms.toNat ≤ 8 * s.len.toNat →
      ∃ t, exec .pack s = .next t ∧
      (∀ wi < s.ms.toNat, ∀ j ≤ 10,
        t.buf.bit (11 * wi + 10 - j) = (s.buf.bit (11 * wi + 10 - j) || (idxGet s.idx wi).getLsbD j)) ∧
      (∀ o, 11 * s.ms.toNat ≤ o → t.buf.bit o = s.buf.bit o) ∧
      (∀ a, s.len.toNat ≤ a → t.buf.read a = s.buf.read a) ∧
      t = { s with buf := t.buf, rsp := some ⟨.ok, 0⟩ })

/-! ### Host access (44_buffer_access.md) -/

/-- 44_buffer_access.md R200: `SETLEN`. `BUF` is neither zeroed nor truncated. -/
def Obligations.SetlenSetsTheLength : Prop :=
  commandWords 0x9 0x0FFFFFC0 (fun w => .setlen (w.extractLsb' 0 6).toNat) ∧
  ∀ (n : Nat) (s : State),
    (33 < n → exec (.setlen n) s = .next (s.errorEntry .badAddress)) ∧
    (n ≤ 33 → ∃ t, exec (.setlen n) s = .next t ∧ t.len.toNat = n ∧ t.mode = .idle ∧
      t = { s with len := t.len, mode := t.mode, rsp := some ⟨.ok, 0⟩ })

/-- 44_buffer_access.md R201: `PUTB`, a store and not an OR. -/
def Obligations.PutbStoresAByte : Prop :=
  commandWords 0xA 0x0FFFC000 (fun w => .putb (w.extractLsb' 8 6).toNat (w.extractLsb' 0 8)) ∧
  ∀ (a : Nat) (d : Byte) (s : State), s.len.toNat ≤ 33 → s.buf.wf →
    (s.len.toNat ≤ a → exec (.putb a d) s = .next (s.errorEntry .badAddress)) ∧
    (a < s.len.toNat → ∃ t, exec (.putb a d) s = .next t ∧
      (∀ b, t.buf.read b = if b = a then d else s.buf.read b) ∧
      t = { s with buf := t.buf, rsp := some ⟨.ok, 0⟩ })

/-- 44_buffer_access.md R202: `GETB`. -/
def Obligations.GetbReadsAByte : Prop :=
  commandWords 0xB 0x0FFFC0FF (fun w => .getb (w.extractLsb' 8 6).toNat) ∧
  ∀ (a : Nat) (s : State), s.len.toNat ≤ 33 →
    (s.len.toNat ≤ a → exec (.getb a) s = .next (s.errorEntry .badAddress)) ∧
    (a < s.len.toNat → exec (.getb a) s = .next { s with rsp := some ⟨.ok, (s.buf.read a).setWidth 32⟩ })

/-- 44_buffer_access.md R203: `PUTI`. The bound is the size of the file, not `MS`. -/
def Obligations.PutiStoresAnIndex : Prop :=
  commandWords 0xC 0x0FFF0000 (fun w => .puti (w.extractLsb' 11 5).toNat (w.extractLsb' 0 11)) ∧
  ∀ (wi : Nat) (val : Index) (s : State),
    (23 < wi → exec (.puti wi val) s = .next (s.errorEntry .badAddress)) ∧
    (wi ≤ 23 → ∃ t, exec (.puti wi val) s = .next t ∧
      (∀ j ≤ 23, idxGet t.idx j = if j = wi then val else idxGet s.idx j) ∧
      t = { s with idx := t.idx, rsp := some ⟨.ok, 0⟩ })

/-- 44_buffer_access.md R204: `GETI`. -/
def Obligations.GetiReadsAnIndex : Prop :=
  commandWords 0xD 0x0FFF07FF (fun w => .geti (w.extractLsb' 11 5).toNat) ∧
  ∀ (wi : Nat) (s : State),
    (23 < wi → exec (.geti wi) s = .next (s.errorEntry .badAddress)) ∧
    (wi ≤ 23 → exec (.geti wi) s = .next { s with rsp := some ⟨.ok, (idxGet s.idx wi).setWidth 32⟩ })

/-! ### System commands (45_system.md) -/

/-- 45_system.md R220: `WIPE` zeroes every piece of state, whatever the state, and is idempotent. -/
def Obligations.WipeZeroesEverything : Prop :=
  commandWords 0xE 0x0FFFFFFF (fun _ => .wipe) ∧
  ∀ s : State, ∃ t, exec .wipe s = .next t ∧ exec .wipe t = .next t ∧ t.rsp = some ⟨.ok, 0⟩ ∧
    t.sameBlock State.reset ∧ (∀ a, t.buf.read a = 0) ∧ (∀ i < 24, idxGet t.idx i = 0) ∧
    (∀ i : Fin 32, t.digest[i] = 0) ∧ t.len = 0 ∧ t.cs = 0 ∧ t.ms = 0 ∧ t.mode = .idle ∧ t.csb = 0 ∧ t.obs = 0 ∧
    t.csok = false ∧ t.vfd = false ∧ t.err = .ok ∧ t.host = s.host ∧ t.hash = s.hash

/-- 45_system.md R221: `STAT`. -/
def Obligations.StatReturnsAStatusWord : Prop :=
  commandWords 0xF 0x0FFFFFC0 (fun w => .stat (w.extractLsb' 0 6).toNat) ∧
  ∀ s : State,
    exec (.stat 0) s = .next { s with rsp := some ⟨.ok, s.status⟩ } ∧
    exec (.stat 1) s = .next { s with rsp := some ⟨.ok, s.aux⟩ } ∧
    ∀ sel, 1 < sel → exec (.stat sel) s = .next (s.errorEntry .badAddress)

/-! ### Errors (60_exceptions.md) -/

/-- 60_exceptions.md R240: a command that ends with a non-zero status other than `InvalidChecksum` changes nothing but
`ERR`, which takes the code if it was 0, and answers the data word 0; and `InvalidChecksum` comes only from `CSVFY` in
mode `DEC`, with the buffer zeroed and the verdict recorded. -/
def Obligations.ErrorsChangeNothingElse : Prop :=
  ∀ (s t : State) (w : Word) (rest : List HostMove) (r : Response), s.host = .command w :: rest → step s = .next t →
    t.rsp = some r →
    (r.st ≠ .ok → r.st ≠ .invalidChecksum →
      t = { s with err := if s.err = .ok then r.st else s.err, host := rest, rsp := some ⟨r.st, 0⟩, hash := none }) ∧
    (r.st = .invalidChecksum →
      decode w = .ok .csvfy ∧ s.mode = .dec ∧ t.mode = .idle ∧ t.csok = false ∧ t.vfd = true ∧
      (∀ a, t.buf.read a = 0) ∧ t.err = if s.err = .ok then .invalidChecksum else s.err)

/-- 60_exceptions.md R241 (with 10_state.md R29): `ERR` holds the first non-zero status. A command other than `WIPE` leaves
a non-zero `ERR` as it is, and a zero `ERR` at its own status; `WIPE` and `rst` clear it; and whatever `ERR` holds, every
command does the same, but for `STAT 0`, which reports it. -/
def Obligations.FirstErrorSticks : Prop :=
  (∀ (s t : State) (w : Word) (rest : List HostMove) (r : Response), s.host = .command w :: rest → step s = .next t →
    t.rsp = some r → w ≠ 0xE0000000 → t.err = if s.err = .ok then r.st else s.err) ∧
  (∀ (s t : State) (rest : List HostMove), s.host = .command 0xE0000000 :: rest ∨ s.host = .rst :: rest →
    step s = .next t → t.err = .ok) ∧
  ∀ (i : Instr) (s : State) (e : Status), i ≠ .stat 0 → s.Inv →
    ∃ t t', exec i s = .next t ∧ exec i { s with err := e } = .next t' ∧ t' = { t with err := t'.err }

/-- The status codes (60_exceptions.md R230): which command can answer which, the number of each of the ten, and that
`rsp_st` shows the number of the response's status (that the response stands in the state is the model's choice, log 2;
what `rsp_st` shows with no response is not stated, log 18). -/
def Obligations.StatusesOfEachCommand : Prop :=
  (∀ (i : Instr) (s t : State) (r : Response), exec i s = .next t → t.rsp = some r → r.st ∈ statusesOf i) ∧
  Status.code .ok = 0 ∧ Status.code .entropyTooLow = 1 ∧ Status.code .entropyTooHigh = 2 ∧
  Status.code .entropyNotAligned = 3 ∧ Status.code .invalidWordCount = 4 ∧ Status.code .invalidChecksum = 5 ∧
  Status.code .illegalCommand = 8 ∧ Status.code .badOffset = 9 ∧ Status.code .badAddress = 10 ∧
  Status.code .badSequence = 11 ∧
  (∀ c : Status, c.code.toNat ∈ [0, 1, 2, 3, 4, 5, 8, 9, 10, 11]) ∧
  (∀ c c' : Status, c.code = c'.code → c = c') ∧
  ∀ (s : State) (r : Response), s.rsp = some r → s.rspValid = true ∧ s.rspSt = r.st.code ∧ s.rspData = r.data

/-- 60_exceptions.md R239: `BadSequence` is answered by exactly these commands in exactly these modes. -/
def Obligations.BadSequenceIsTheWrongMode : Prop :=
  ∀ (i : Instr) (s : State), s.Inv → ∃ (t : State) (r : Response), exec i s = .next t ∧ t.rsp = some r ∧
    (r.st = .badSequence ↔
      i = .csapp ∧ s.mode ≠ .encLoad ∨ i = .unpk ∧ s.mode ≠ .encReady ∨ i = .pack ∧ s.mode ≠ .dec ∨
      i = .csvfy ∧ s.mode ≠ .dec)

/-! ### Whole-machine rules (10_state.md, 20_memory.md) -/

/-- The commands other than `CSAPP`, `UNPK`, `PACK`, `CSVFY` ignore `MODE` (10_state.md R25): with another mode they answer
the same and leave the same, but for `MODE` itself and for `STAT 0`, which reports it. -/
def Obligations.OtherCommandsIgnoreTheMode : Prop :=
  ∀ (i : Instr) (s t : State) (m : Mode), i ≠ .csapp → i ≠ .unpk → i ≠ .pack → i ≠ .csvfy → i ≠ .stat 0 →
    exec i s = .next t →
    ∃ t', exec i { s with mode := m } = .next t' ∧ t' = { t with mode := t'.mode } ∧
      (t.mode = s.mode ∧ t'.mode = m ∨ t'.mode = t.mode)

/-- How each mode is entered and left (10_state.md R25, the columns "entered by" and "leaves by"). -/
def Obligations.HowAModeChanges : Prop :=
  ∀ (i : Instr) (s t : State), exec i s = .next t → t.mode ≠ s.mode →
    (t.mode = .encLoad → ∃ n, i = .cfge n) ∧
    (t.mode = .encReady → i = .csapp ∧ s.mode = .encLoad) ∧
    (t.mode = .dec → ∃ ms, i = .cfgd ms) ∧
    (t.mode = .idle → i = .wipe ∨ (∃ n, i = .setlen n) ∨ i = .unpk ∧ s.mode = .encReady ∨ i = .csvfy ∧ s.mode = .dec)

/-- Who writes what (10_state.md, the column "written by" of the summary table; R21 to R31): a command that changes a piece
of state is one of those the table names for it, and `ERR` is changed by `WIPE` or with a non-zero status. -/
def Obligations.WritersOfEachRegister : Prop :=
  ∀ (i : Instr) (s t : State), exec i s = .next t →
    (t.buf ≠ s.buf → (∃ a d, i = .putb a d) ∨ (∃ v o, i = .wr11 v o) ∨ i = .pack ∨ i = .csapp ∨ (∃ n, i = .cfgd n) ∨
      i = .unpk ∨ i = .csvfy ∨ i = .wipe) ∧
    (t.len ≠ s.len → (∃ n, i = .setlen n) ∨ (∃ n, i = .cfge n) ∨ (∃ n, i = .cfgd n) ∨ i = .csapp ∨ i = .wipe) ∧
    (t.idx ≠ s.idx → (∃ wi v, i = .puti wi v) ∨ i = .unpk ∨ i = .wipe) ∧
    (t.cs ≠ s.cs ∨ t.ms ≠ s.ms → (∃ n, i = .cfge n) ∨ (∃ n, i = .cfgd n) ∨ i = .wipe) ∧
    (t.csb ≠ s.csb → i = .csapp ∨ i = .csvfy ∨ i = .wipe) ∧
    (t.obs ≠ s.obs ∨ t.csok ≠ s.csok ∨ t.vfd ≠ s.vfd → i = .csvfy ∨ i = .wipe) ∧
    (t.digest ≠ s.digest → i = .csapp ∨ i = .csvfy ∨ i = .wipe) ∧
    (t.mode ≠ s.mode → (∃ n, i = .setlen n) ∨ (∃ n, i = .cfge n) ∨ (∃ n, i = .cfgd n) ∨ i = .csapp ∨ i = .unpk ∨
      i = .csvfy ∨ i = .wipe) ∧
    (t.err ≠ s.err → i = .wipe ∨ ∃ r, t.rsp = some r ∧ r.st ≠ .ok) ∧
    (t.hash ≠ s.hash → i = .csapp ∨ i = .csvfy) ∧ t.host = s.host

/-- Bytes at and beyond `LEN` persist (10_state.md R21): no command but `CFGD`, `UNPK`, `CSVFY` and `WIPE` changes them, and
`CSAPP` changes `BUF[LEN]` alone. -/
def Obligations.HiddenBytesPersist : Prop :=
  ∀ (i : Instr) (s t : State), s.Inv → exec i s = .next t → (∀ ms, i ≠ .cfgd ms) → i ≠ .unpk → i ≠ .csvfy → i ≠ .wipe →
    (i ≠ .csapp → ∀ a, s.len.toNat ≤ a → t.buf.read a = s.buf.read a) ∧
    (i = .csapp → ∀ a, s.len.toNat < a → t.buf.read a = s.buf.read a)

/-- No command returns the bytes at and beyond `LEN` (10_state.md R21, R36): from two states that differ in those bytes
alone, every command answers the same, asks the engine the same, and leaves states that differ in the buffer alone. -/
def Obligations.HiddenBytesAreNotObserved : Prop :=
  ∀ (i : Instr) (s s' : State), s.Inv → s'.Inv → s.sameBelowLen s' →
    ∃ t t', exec i s = .next t ∧ exec i s' = .next t' ∧ t'.rsp = t.rsp ∧ t'.hash = t.hash ∧ t' = { t with buf := t'.buf }

/-- 20_memory.md R69: reads change no state; the same read, store or pack twice is the same as once; `WR11` and `PACK` never
clear a bit; a second `UNPK`, `CSVFY` or `CSAPP` is `BadSequence`. -/
def Obligations.RepeatingACommand : Prop :=
  (∀ (i : Instr) (s t : State), (∃ o, i = .rd11 o) ∨ (∃ a, i = .getb a) ∨ (∃ wi, i = .geti wi) ∨ (∃ n, i = .stat n) →
    exec i s = .next t → t.rsp.map Response.st = some .ok → t = { s with rsp := t.rsp } ∧ exec i t = .next t) ∧
  (∀ (i : Instr) (s t : State), (∃ a d, i = .putb a d) ∨ (∃ wi v, i = .puti wi v) ∨ (∃ v o, i = .wr11 v o) ∨ i = .pack →
    s.Inv → exec i s = .next t → exec i t = .next t ∧
      ((∃ v o, i = .wr11 v o) ∨ i = .pack → ∀ o, s.buf.bit o = true → t.buf.bit o = true)) ∧
  ∀ (i : Instr) (s t : State), i = .unpk ∨ i = .csvfy ∨ i = .csapp → exec i s = .next t → ¬t = s.errorEntry .badSequence →
    exec i t = .next (t.errorEntry .badSequence)

/-! ### The two flows (30_encoding.md R101; 42_encoder.md R166; 43_decoder.md R185, R186) -/

/-- `ENCODE` of any legal entropy, from any state that meets the invariants, ends `OK` with `MS` words, and the words are a
function of the entropy alone (42_encoder.md R166 (a)). -/
def Obligations.EncodeIsAFunctionOfTheEntropy : Prop :=
  ∀ (bs : List Byte) (s s' : State), bs.length ∈ legalEntropyBytes → s.Inv → s'.Inv →
    ∃ t t', runFlow (encodeFlow bs) s = .next t ∧ runFlow (encodeFlow bs) s' = .next t' ∧ t'.idx = t.idx ∧
      t.rsp = some ⟨.ok, BitVec.ofNat 32 (3 * bs.length / 4)⟩ ∧ t'.rsp = t.rsp ∧ t.mode = .idle ∧ t.Inv ∧
      (∀ a, t.buf.read a = 0) ∧ ∀ wi, 3 * bs.length / 4 ≤ wi → wi < 24 → idxGet t.idx wi = 0

/-- `VALIDATE` up to `PACK` leaves the concatenation of the words, each as 11 bits most significant first, and then zeros
(43_decoder.md R184, R185), from any state that meets the invariants. -/
def Obligations.PackedBufferIsTheConcatenation : Prop :=
  ∀ (vs : List Index) (s : State), vs.length ∈ legalWordCounts → s.Inv →
    ∃ t, runFlow (packFlow vs) s = .next t ∧ t.rsp = some ⟨.ok, 0⟩ ∧ t.mode = .dec ∧ t.Inv ∧
      t.len.toNat = (11 * vs.length + 7) / 8 ∧
      (∀ wi < vs.length, ∀ j ≤ 10, t.buf.bit (11 * wi + 10 - j) = (vs[wi]?.getD 0).getLsbD j) ∧
      ∀ o, 11 * vs.length ≤ o → t.buf.bit o = false

/-- The round trip (42_encoder.md R166 (c)): the words that `ENCODE` gives, fed to `VALIDATE`, give back the entropy and
the checksum bits before `CSVFY`, and `CSVFY` then answers `OK`, whatever Sha256 is (log 3). -/
def Obligations.EncodedWordsValidate : Prop :=
  ∀ (bs : List Byte) (s : State), bs.length ∈ legalEntropyBytes → s.Inv →
    ∃ t u v, runFlow (encodeFlow bs) s = .next t ∧
      runFlow (packFlow (t.idx.toList.take t.ms.toNat)) t = .next u ∧
      (∀ a < bs.length, u.buf.read a = bs[a]?.getD 0) ∧
      u.buf.read bs.length = (Config.sha256 bs)[0] &&& csmask u.cs ∧
      runFlow (validateFlow (t.idx.toList.take t.ms.toNat)) t = .next v ∧
      v.rsp.map Response.st = some .ok ∧ v.csok = true ∧ v.vfd = true ∧ ∀ a, v.buf.read a = 0

/-- How `VALIDATE` ends (43_decoder.md R186 (a), (b)), from any state that meets the invariants: with `InvalidWordCount` for
a count outside the set, whatever the indices; otherwise with `OK` or `InvalidChecksum`, the same from every such state. -/
def Obligations.HowAValidationEnds : Prop :=
  ∀ (vs : List Index) (s s' : State), vs.length < 64 → s.Inv → s'.Inv →
    ∃ t t' r, runFlow (validateFlow vs) s = .next t ∧ runFlow (validateFlow vs) s' = .next t' ∧
      t.rsp = some r ∧ t'.rsp = some r ∧
      (vs.length ∉ legalWordCounts → r = ⟨.invalidWordCount, 0⟩) ∧
      (vs.length ∈ legalWordCounts → r.st = .ok ∨ r.st = .invalidChecksum)

/-- How many last words validate (43_decoder.md R186 (c), 90_conflicts.md C9): with all words but the last fixed, exactly
`2^(11-CS)` of the 2048 values of the last one are accepted, whatever Sha256 is (log 3). -/
def Obligations.AcceptedLastWords : Prop :=
  ∀ (vs : List Index) (s : State), vs.length + 1 ∈ legalWordCounts → s.Inv →
    ((Finset.range 2048).filter fun n => endsOk (runFlow (validateFlow (vs ++ [BitVec.ofNat 11 n])) s)).card =
      2 ^ (11 - (vs.length + 1) / 3)
end

