-- ==== Sys2Proof/Laws/Encoding.lean ====
section
/-! SUPPORT. Fields of a command word: what a placed operand reads back as, when a row of the table matches, and
what each opcode decodes to. -/

namespace Sys2Proof

theorem getLsbD_zero_word (i : Nat) : (0 : Word).getLsbD i = false := BitVec.getLsbD_zero

/-- Bit `i` of a placed operand. -/
theorem getLsbD_place (width lo v i : Nat) (hi : i < 32) :
    (place width lo v).getLsbD i = (decide (lo ≤ i) && decide (i - lo < width) && v.testBit (i - lo)) := by
  unfold place
  rw [BitVec.getLsbD_shiftLeft, BitVec.getLsbD_setWidth, BitVec.getLsbD_ofNat]
  have h : i - lo < 32 := by omega
  by_cases h' : i < lo
  · simp [h', Nat.not_le.mpr h']
  · simp [hi, h, h', Nat.not_lt.mp h']

/-- A placed operand reads back from its own field. -/
theorem extract_place_same {width lo : Nat} (h : lo + width ≤ 32) (v : Nat) :
    (place width lo v).extractLsb' lo width = BitVec.ofNat width v := by
  apply BitVec.eq_of_getLsbD_eq
  intro i hi
  rw [BitVec.getLsbD_extractLsb', getLsbD_place _ _ _ _ (by omega), BitVec.getLsbD_ofNat]
  simp [hi]

/-- A placed operand reads as 0 from a field apart from its own. -/
theorem extract_place_apart {width lo width' lo' : Nat} (h' : lo' + width' ≤ 32)
    (apart : lo + width ≤ lo' ∨ lo' + width' ≤ lo) (v : Nat) :
    (place width lo v).extractLsb' lo' width' = 0 := by
  apply BitVec.eq_of_getLsbD_eq
  intro i hi
  rw [BitVec.getLsbD_extractLsb', getLsbD_place _ _ _ _ (by omega)]
  rcases apart with h | h
  · have : ¬lo' + i - lo < width := by omega
    simp [this]
  · have : ¬lo ≤ lo' + i := by omega
    simp [this]

/-- A placed operand has no bit in a mask apart from its field. -/
theorem place_and_mask {width lo : Nat} {z : Word} (h : ∀ i < 32, lo ≤ i → i < lo + width → z.getLsbD i = false)
    (v : Nat) : place width lo v &&& z = 0 := by
  apply BitVec.eq_of_getLsbD_eq
  intro i hi
  rw [BitVec.getLsbD_and, getLsbD_place _ _ _ _ hi, getLsbD_zero_word]
  by_cases c : lo ≤ i ∧ i < lo + width
  · simp [h i hi c.1 c.2]
  · by_cases c1 : lo ≤ i
    · have : ¬i - lo < width := by omega
      simp [this]
    · simp [c1]

theorem extract_or (x y : Word) (lo n : Nat) :
    (x ||| y).extractLsb' lo n = x.extractLsb' lo n ||| y.extractLsb' lo n := by
  apply BitVec.eq_of_getLsbD_eq
  intro i hi
  simp [hi]

theorem or_and (x y z : Word) : (x ||| y) &&& z = (x &&& z) ||| (y &&& z) := by
  apply BitVec.eq_of_getLsbD_eq
  intro i _
  simp [Bool.and_or_distrib_right]

/-- A row matches exactly when the opcode is its own and no must-be-zero bit is 1: `z` is the row's mask without
its opcode bits. -/
theorem and_mask_eq_iff (w : Word) (c : BitVec 4) {z : Word} (hz : z.extractLsb' 28 4 = 0) :
    w &&& (0xF0000000#32 ||| z) = c.setWidth 32 <<< 28 ↔ fieldOp w = c ∧ w &&& z = 0 := by
  have zt : ∀ i, 28 ≤ i → i < 32 → z.getLsbD i = false := by
    intro i h h'
    have := congrArg (fun x => x.getLsbD (i - 28)) hz
    simpa [BitVec.getLsbD_extractLsb', show i - 28 < 4 by omega, show 28 + (i - 28) = i by omega] using this
  have ft : ∀ i, i < 32 → (0xF0000000#32).getLsbD i = decide (28 ≤ i) := by decide
  constructor
  · intro h
    have bit : ∀ i, i < 32 → (w.getLsbD i && (decide (28 ≤ i) || z.getLsbD i)) =
        (decide (28 ≤ i) && c.getLsbD (i - 28)) := by
      intro i hi
      have := congrArg (fun x => x.getLsbD i) h
      rw [BitVec.getLsbD_and, BitVec.getLsbD_or, ft i hi, BitVec.getLsbD_shiftLeft, BitVec.getLsbD_setWidth] at this
      by_cases c28 : i < 28
      · simpa [hi, c28, Nat.not_le.mpr c28] using this
      · simpa [hi, c28, Nat.not_lt.mp c28, show i - 28 < 32 by omega] using this
    constructor
    · apply BitVec.eq_of_getLsbD_eq
      intro i hi
      have := bit (28 + i) (by omega)
      simpa [fieldOp, hi] using this
    · apply BitVec.eq_of_getLsbD_eq
      intro i hi
      rw [BitVec.getLsbD_and, getLsbD_zero_word]
      by_cases c28 : i < 28
      · simpa [Nat.not_le.mpr c28] using bit i hi
      · rw [zt i (by omega) hi, Bool.and_false]
  · rintro ⟨rfl, h⟩
    apply BitVec.eq_of_getLsbD_eq
    intro i hi
    have hb := congrArg (fun x => x.getLsbD i) h
    rw [BitVec.getLsbD_and, getLsbD_zero_word] at hb
    rw [BitVec.getLsbD_and, BitVec.getLsbD_or, ft i hi, BitVec.getLsbD_shiftLeft, BitVec.getLsbD_setWidth]
    by_cases c28 : i < 28
    · simpa [hi, c28, Nat.not_le.mpr c28] using hb
    · have e : 28 + (i - 28) = i := by omega
      simp [hi, c28, Nat.not_lt.mp c28, show i - 28 < 32 by omega, fieldOp, show i - 28 < 4 by omega, e]

/-- `rowMatches` as an equation. -/
theorem rowMatches_iff (w : Word) (r : Row) : rowMatches w r = true ↔ w &&& r.mask = r.pattern := by
  simp [rowMatches]

/-! ### Each row of the table -/

/-- Looking for the row of opcode `c` with must-be-zero bits `z`. -/
theorem find_row (w : Word) (c : BitVec 4) (z : Word) {p m : Word} {b : Word → Instr} {rows : List Row}
    (hz : z.extractLsb' 28 4 = 0) (hp : p = c.setWidth 32 <<< 28) (hm : m = 0xF0000000#32 ||| z) :
    (⟨p, m, b⟩ :: rows).find? (rowMatches w) =
      if fieldOp w = c ∧ w &&& z = 0 then some ⟨p, m, b⟩ else rows.find? (rowMatches w) := by
  subst hp hm
  have e := (rowMatches_iff w ⟨c.setWidth 32 <<< 28, 0xF0000000#32 ||| z, b⟩).trans (and_mask_eq_iff w c hz)
  by_cases h : fieldOp w = c ∧ w &&& z = 0
  · rw [List.find?_cons_of_pos (e.mpr h), if_pos h]
  · rw [List.find?_cons_of_neg (fun h' => h (e.mp h')), if_neg h]

/-- Which row of the table a word matches, by opcode and must-be-zero bits. -/
theorem find_opcodeTable (w : Word) :
    opcodeTable.find? (rowMatches w) =
      if fieldOp w = 1 ∧ w &&& 0x0FFFFE00 = 0 then some ⟨0x10000000, 0xFFFFFE00, fun w => .rd11 (fieldOff w)⟩ else
      if fieldOp w = 2 ∧ w &&& 0x0FF00000 = 0 then some ⟨0x20000000, 0xFFF00000, fun w => .wr11 (fieldValO w) (fieldOff w)⟩ else
      if fieldOp w = 3 ∧ w &&& 0x0FFFFFFF = 0 then some ⟨0x30000000, 0xFFFFFFFF, fun _ => .csapp⟩ else
      if fieldOp w = 4 ∧ w &&& 0x0FFFFFFF = 0 then some ⟨0x40000000, 0xFFFFFFFF, fun _ => .csvfy⟩ else
      if fieldOp w = 5 ∧ w &&& 0x0FFFFFC0 = 0 then some ⟨0x50000000, 0xFFFFFFC0, fun w => .cfge (fieldN w)⟩ else
      if fieldOp w = 6 ∧ w &&& 0x0FFFFFFF = 0 then some ⟨0x60000000, 0xFFFFFFFF, fun _ => .unpk⟩ else
      if fieldOp w = 7 ∧ w &&& 0x0FFFFFC0 = 0 then some ⟨0x70000000, 0xFFFFFFC0, fun w => .cfgd (fieldN w)⟩ else
      if fieldOp w = 8 ∧ w &&& 0x0FFFFFFF = 0 then some ⟨0x80000000, 0xFFFFFFFF, fun _ => .pack⟩ else
      if fieldOp w = 9 ∧ w &&& 0x0FFFFFC0 = 0 then some ⟨0x90000000, 0xFFFFFFC0, fun w => .setlen (fieldN w)⟩ else
      if fieldOp w = 10 ∧ w &&& 0x0FFFC000 = 0 then some ⟨0xA0000000, 0xFFFFC000, fun w => .putb (fieldAddr w) (fieldData w)⟩ else
      if fieldOp w = 11 ∧ w &&& 0x0FFFC0FF = 0 then some ⟨0xB0000000, 0xFFFFC0FF, fun w => .getb (fieldAddr w)⟩ else
      if fieldOp w = 12 ∧ w &&& 0x0FFF0000 = 0 then some ⟨0xC0000000, 0xFFFF0000, fun w => .puti (fieldWi w) (fieldValX w)⟩ else
      if fieldOp w = 13 ∧ w &&& 0x0FFF07FF = 0 then some ⟨0xD0000000, 0xFFFF07FF, fun w => .geti (fieldWi w)⟩ else
      if fieldOp w = 14 ∧ w &&& 0x0FFFFFFF = 0 then some ⟨0xE0000000, 0xFFFFFFFF, fun _ => .wipe⟩ else
      if fieldOp w = 15 ∧ w &&& 0x0FFFFFC0 = 0 then some ⟨0xF0000000, 0xFFFFFFC0, fun w => .stat (fieldN w)⟩ else
      none := by
  simp only [opcodeTable, List.cons_append, List.nil_append]
  rw [find_row w 1 0x0FFFFE00 (by decide) (by decide) (by decide)]
  rw [find_row w 2 0x0FF00000 (by decide) (by decide) (by decide)]
  rw [find_row w 3 0x0FFFFFFF (by decide) (by decide) (by decide)]
  rw [find_row w 4 0x0FFFFFFF (by decide) (by decide) (by decide)]
  rw [find_row w 5 0x0FFFFFC0 (by decide) (by decide) (by decide)]
  rw [find_row w 6 0x0FFFFFFF (by decide) (by decide) (by decide)]
  rw [find_row w 7 0x0FFFFFC0 (by decide) (by decide) (by decide)]
  rw [find_row w 8 0x0FFFFFFF (by decide) (by decide) (by decide)]
  rw [find_row w 9 0x0FFFFFC0 (by decide) (by decide) (by decide)]
  rw [find_row w 10 0x0FFFC000 (by decide) (by decide) (by decide)]
  rw [find_row w 11 0x0FFFC0FF (by decide) (by decide) (by decide)]
  rw [find_row w 12 0x0FFF0000 (by decide) (by decide) (by decide)]
  rw [find_row w 13 0x0FFF07FF (by decide) (by decide) (by decide)]
  rw [find_row w 14 0x0FFFFFFF (by decide) (by decide) (by decide)]
  rw [find_row w 15 0x0FFFFFC0 (by decide) (by decide) (by decide)]
  rfl

/-! What a word of each opcode decodes to. -/

theorem decode_op1 {w : Word} (h : fieldOp w = 1) :
    decode w = if w &&& 0x0FFFFE00 = 0 then .ok (.rd11 (fieldOff w)) else .error .mustBeZeroBit := by
  rw [decode, find_opcodeTable, h]
  by_cases hz : w &&& 0x0FFFFE00#32 = 0#32 <;> simp [hz]

theorem decode_op2 {w : Word} (h : fieldOp w = 2) :
    decode w = if w &&& 0x0FF00000 = 0 then .ok (.wr11 (fieldValO w) (fieldOff w)) else .error .mustBeZeroBit := by
  rw [decode, find_opcodeTable, h]
  by_cases hz : w &&& 0x0FF00000#32 = 0#32 <;> simp [hz]

theorem decode_op3 {w : Word} (h : fieldOp w = 3) :
    decode w = if w &&& 0x0FFFFFFF = 0 then .ok .csapp else .error .mustBeZeroBit := by
  rw [decode, find_opcodeTable, h]
  by_cases hz : w &&& 0x0FFFFFFF#32 = 0#32 <;> simp [hz]

theorem decode_op4 {w : Word} (h : fieldOp w = 4) :
    decode w = if w &&& 0x0FFFFFFF = 0 then .ok .csvfy else .error .mustBeZeroBit := by
  rw [decode, find_opcodeTable, h]
  by_cases hz : w &&& 0x0FFFFFFF#32 = 0#32 <;> simp [hz]

theorem decode_op5 {w : Word} (h : fieldOp w = 5) :
    decode w = if w &&& 0x0FFFFFC0 = 0 then .ok (.cfge (fieldN w)) else .error .mustBeZeroBit := by
  rw [decode, find_opcodeTable, h]
  by_cases hz : w &&& 0x0FFFFFC0#32 = 0#32 <;> simp [hz]

theorem decode_op6 {w : Word} (h : fieldOp w = 6) :
    decode w = if w &&& 0x0FFFFFFF = 0 then .ok .unpk else .error .mustBeZeroBit := by
  rw [decode, find_opcodeTable, h]
  by_cases hz : w &&& 0x0FFFFFFF#32 = 0#32 <;> simp [hz]

theorem decode_op7 {w : Word} (h : fieldOp w = 7) :
    decode w = if w &&& 0x0FFFFFC0 = 0 then .ok (.cfgd (fieldN w)) else .error .mustBeZeroBit := by
  rw [decode, find_opcodeTable, h]
  by_cases hz : w &&& 0x0FFFFFC0#32 = 0#32 <;> simp [hz]

theorem decode_op8 {w : Word} (h : fieldOp w = 8) :
    decode w = if w &&& 0x0FFFFFFF = 0 then .ok .pack else .error .mustBeZeroBit := by
  rw [decode, find_opcodeTable, h]
  by_cases hz : w &&& 0x0FFFFFFF#32 = 0#32 <;> simp [hz]

theorem decode_op9 {w : Word} (h : fieldOp w = 9) :
    decode w = if w &&& 0x0FFFFFC0 = 0 then .ok (.setlen (fieldN w)) else .error .mustBeZeroBit := by
  rw [decode, find_opcodeTable, h]
  by_cases hz : w &&& 0x0FFFFFC0#32 = 0#32 <;> simp [hz]

theorem decode_op10 {w : Word} (h : fieldOp w = 10) :
    decode w = if w &&& 0x0FFFC000 = 0 then .ok (.putb (fieldAddr w) (fieldData w)) else .error .mustBeZeroBit := by
  rw [decode, find_opcodeTable, h]
  by_cases hz : w &&& 0x0FFFC000#32 = 0#32 <;> simp [hz]

theorem decode_op11 {w : Word} (h : fieldOp w = 11) :
    decode w = if w &&& 0x0FFFC0FF = 0 then .ok (.getb (fieldAddr w)) else .error .mustBeZeroBit := by
  rw [decode, find_opcodeTable, h]
  by_cases hz : w &&& 0x0FFFC0FF#32 = 0#32 <;> simp [hz]

theorem decode_op12 {w : Word} (h : fieldOp w = 12) :
    decode w = if w &&& 0x0FFF0000 = 0 then .ok (.puti (fieldWi w) (fieldValX w)) else .error .mustBeZeroBit := by
  rw [decode, find_opcodeTable, h]
  by_cases hz : w &&& 0x0FFF0000#32 = 0#32 <;> simp [hz]

theorem decode_op13 {w : Word} (h : fieldOp w = 13) :
    decode w = if w &&& 0x0FFF07FF = 0 then .ok (.geti (fieldWi w)) else .error .mustBeZeroBit := by
  rw [decode, find_opcodeTable, h]
  by_cases hz : w &&& 0x0FFF07FF#32 = 0#32 <;> simp [hz]

theorem decode_op14 {w : Word} (h : fieldOp w = 14) :
    decode w = if w &&& 0x0FFFFFFF = 0 then .ok .wipe else .error .mustBeZeroBit := by
  rw [decode, find_opcodeTable, h]
  by_cases hz : w &&& 0x0FFFFFFF#32 = 0#32 <;> simp [hz]

theorem decode_op15 {w : Word} (h : fieldOp w = 15) :
    decode w = if w &&& 0x0FFFFFC0 = 0 then .ok (.stat (fieldN w)) else .error .mustBeZeroBit := by
  rw [decode, find_opcodeTable, h]
  by_cases hz : w &&& 0x0FFFFFC0#32 = 0#32 <;> simp [hz]

theorem decode_op0 {w : Word} (h : fieldOp w = 0) : decode w = .error .reservedOpcode := by
  rw [decode, find_opcodeTable, h]
  simp

end Sys2Proof
end

