-- ==== Sys2Proof/Laws/State.lean ====
section
/-! SUPPORT. What each named update does to each field of the state, and what the two ways a command ends
answer, so that no proof unfolds a record update. -/

namespace Sys2Proof.Machine

variable (s : State)

/-! `State.putByte` -/

@[simp] theorem State.putByte_buf (a : Nat) (v : Byte) : (s.putByte a v).buf = s.buf.write a v := rfl
@[simp] theorem State.putByte_len (a : Nat) (v : Byte) : (s.putByte a v).len = s.len := rfl
@[simp] theorem State.putByte_idx (a : Nat) (v : Byte) : (s.putByte a v).idx = s.idx := rfl
@[simp] theorem State.putByte_cs (a : Nat) (v : Byte) : (s.putByte a v).cs = s.cs := rfl
@[simp] theorem State.putByte_ms (a : Nat) (v : Byte) : (s.putByte a v).ms = s.ms := rfl
@[simp] theorem State.putByte_mode (a : Nat) (v : Byte) : (s.putByte a v).mode = s.mode := rfl
@[simp] theorem State.putByte_csb (a : Nat) (v : Byte) : (s.putByte a v).csb = s.csb := rfl
@[simp] theorem State.putByte_obs (a : Nat) (v : Byte) : (s.putByte a v).obs = s.obs := rfl
@[simp] theorem State.putByte_digest (a : Nat) (v : Byte) : (s.putByte a v).digest = s.digest := rfl
@[simp] theorem State.putByte_err (a : Nat) (v : Byte) : (s.putByte a v).err = s.err := rfl
@[simp] theorem State.putByte_csok (a : Nat) (v : Byte) : (s.putByte a v).csok = s.csok := rfl
@[simp] theorem State.putByte_vfd (a : Nat) (v : Byte) : (s.putByte a v).vfd = s.vfd := rfl
@[simp] theorem State.putByte_host (a : Nat) (v : Byte) : (s.putByte a v).host = s.host := rfl
@[simp] theorem State.putByte_rsp (a : Nat) (v : Byte) : (s.putByte a v).rsp = s.rsp := rfl
@[simp] theorem State.putByte_hash (a : Nat) (v : Byte) : (s.putByte a v).hash = s.hash := rfl

/-! `State.write11` -/

@[simp] theorem State.write11_buf (v : Index) (off : Nat) : (s.write11 v off).buf = s.buf.write11 s.len.toNat v off := rfl
@[simp] theorem State.write11_len (v : Index) (off : Nat) : (s.write11 v off).len = s.len := rfl
@[simp] theorem State.write11_idx (v : Index) (off : Nat) : (s.write11 v off).idx = s.idx := rfl
@[simp] theorem State.write11_cs (v : Index) (off : Nat) : (s.write11 v off).cs = s.cs := rfl
@[simp] theorem State.write11_ms (v : Index) (off : Nat) : (s.write11 v off).ms = s.ms := rfl
@[simp] theorem State.write11_mode (v : Index) (off : Nat) : (s.write11 v off).mode = s.mode := rfl
@[simp] theorem State.write11_csb (v : Index) (off : Nat) : (s.write11 v off).csb = s.csb := rfl
@[simp] theorem State.write11_obs (v : Index) (off : Nat) : (s.write11 v off).obs = s.obs := rfl
@[simp] theorem State.write11_digest (v : Index) (off : Nat) : (s.write11 v off).digest = s.digest := rfl
@[simp] theorem State.write11_err (v : Index) (off : Nat) : (s.write11 v off).err = s.err := rfl
@[simp] theorem State.write11_csok (v : Index) (off : Nat) : (s.write11 v off).csok = s.csok := rfl
@[simp] theorem State.write11_vfd (v : Index) (off : Nat) : (s.write11 v off).vfd = s.vfd := rfl
@[simp] theorem State.write11_host (v : Index) (off : Nat) : (s.write11 v off).host = s.host := rfl
@[simp] theorem State.write11_rsp (v : Index) (off : Nat) : (s.write11 v off).rsp = s.rsp := rfl
@[simp] theorem State.write11_hash (v : Index) (off : Nat) : (s.write11 v off).hash = s.hash := rfl

/-! `State.zeroBuf` -/

@[simp] theorem State.zeroBuf_buf : s.zeroBuf.buf = Memory.zeroed := rfl
@[simp] theorem State.zeroBuf_len : s.zeroBuf.len = s.len := rfl
@[simp] theorem State.zeroBuf_idx : s.zeroBuf.idx = s.idx := rfl
@[simp] theorem State.zeroBuf_cs : s.zeroBuf.cs = s.cs := rfl
@[simp] theorem State.zeroBuf_ms : s.zeroBuf.ms = s.ms := rfl
@[simp] theorem State.zeroBuf_mode : s.zeroBuf.mode = s.mode := rfl
@[simp] theorem State.zeroBuf_csb : s.zeroBuf.csb = s.csb := rfl
@[simp] theorem State.zeroBuf_obs : s.zeroBuf.obs = s.obs := rfl
@[simp] theorem State.zeroBuf_digest : s.zeroBuf.digest = s.digest := rfl
@[simp] theorem State.zeroBuf_err : s.zeroBuf.err = s.err := rfl
@[simp] theorem State.zeroBuf_csok : s.zeroBuf.csok = s.csok := rfl
@[simp] theorem State.zeroBuf_vfd : s.zeroBuf.vfd = s.vfd := rfl
@[simp] theorem State.zeroBuf_host : s.zeroBuf.host = s.host := rfl
@[simp] theorem State.zeroBuf_rsp : s.zeroBuf.rsp = s.rsp := rfl
@[simp] theorem State.zeroBuf_hash : s.zeroBuf.hash = s.hash := rfl

/-! `State.putIdx` -/

@[simp] theorem State.putIdx_buf (i : Nat) (v : Index) : (s.putIdx i v).buf = s.buf := rfl
@[simp] theorem State.putIdx_len (i : Nat) (v : Index) : (s.putIdx i v).len = s.len := rfl
@[simp] theorem State.putIdx_idx (i : Nat) (v : Index) : (s.putIdx i v).idx = idxPut s.idx i v := rfl
@[simp] theorem State.putIdx_cs (i : Nat) (v : Index) : (s.putIdx i v).cs = s.cs := rfl
@[simp] theorem State.putIdx_ms (i : Nat) (v : Index) : (s.putIdx i v).ms = s.ms := rfl
@[simp] theorem State.putIdx_mode (i : Nat) (v : Index) : (s.putIdx i v).mode = s.mode := rfl
@[simp] theorem State.putIdx_csb (i : Nat) (v : Index) : (s.putIdx i v).csb = s.csb := rfl
@[simp] theorem State.putIdx_obs (i : Nat) (v : Index) : (s.putIdx i v).obs = s.obs := rfl
@[simp] theorem State.putIdx_digest (i : Nat) (v : Index) : (s.putIdx i v).digest = s.digest := rfl
@[simp] theorem State.putIdx_err (i : Nat) (v : Index) : (s.putIdx i v).err = s.err := rfl
@[simp] theorem State.putIdx_csok (i : Nat) (v : Index) : (s.putIdx i v).csok = s.csok := rfl
@[simp] theorem State.putIdx_vfd (i : Nat) (v : Index) : (s.putIdx i v).vfd = s.vfd := rfl
@[simp] theorem State.putIdx_host (i : Nat) (v : Index) : (s.putIdx i v).host = s.host := rfl
@[simp] theorem State.putIdx_rsp (i : Nat) (v : Index) : (s.putIdx i v).rsp = s.rsp := rfl
@[simp] theorem State.putIdx_hash (i : Nat) (v : Index) : (s.putIdx i v).hash = s.hash := rfl

/-! `State.receiveDigest` -/

@[simp] theorem State.receiveDigest_buf (d : Config.Digest) : (s.receiveDigest d).buf = s.buf := rfl
@[simp] theorem State.receiveDigest_len (d : Config.Digest) : (s.receiveDigest d).len = s.len := rfl
@[simp] theorem State.receiveDigest_idx (d : Config.Digest) : (s.receiveDigest d).idx = s.idx := rfl
@[simp] theorem State.receiveDigest_cs (d : Config.Digest) : (s.receiveDigest d).cs = s.cs := rfl
@[simp] theorem State.receiveDigest_ms (d : Config.Digest) : (s.receiveDigest d).ms = s.ms := rfl
@[simp] theorem State.receiveDigest_mode (d : Config.Digest) : (s.receiveDigest d).mode = s.mode := rfl
@[simp] theorem State.receiveDigest_csb (d : Config.Digest) : (s.receiveDigest d).csb = s.csb := rfl
@[simp] theorem State.receiveDigest_obs (d : Config.Digest) : (s.receiveDigest d).obs = s.obs := rfl
@[simp] theorem State.receiveDigest_digest (d : Config.Digest) : (s.receiveDigest d).digest = d := rfl
@[simp] theorem State.receiveDigest_err (d : Config.Digest) : (s.receiveDigest d).err = s.err := rfl
@[simp] theorem State.receiveDigest_csok (d : Config.Digest) : (s.receiveDigest d).csok = s.csok := rfl
@[simp] theorem State.receiveDigest_vfd (d : Config.Digest) : (s.receiveDigest d).vfd = s.vfd := rfl
@[simp] theorem State.receiveDigest_host (d : Config.Digest) : (s.receiveDigest d).host = s.host := rfl
@[simp] theorem State.receiveDigest_rsp (d : Config.Digest) : (s.receiveDigest d).rsp = s.rsp := rfl
@[simp] theorem State.receiveDigest_hash (d : Config.Digest) : (s.receiveDigest d).hash = some ⟨s.message, d⟩ := rfl

/-! `State.takeChecksumByte` -/

@[simp] theorem State.takeChecksumByte_buf : s.takeChecksumByte.buf = s.buf := rfl
@[simp] theorem State.takeChecksumByte_len : s.takeChecksumByte.len = s.len := rfl
@[simp] theorem State.takeChecksumByte_idx : s.takeChecksumByte.idx = s.idx := rfl
@[simp] theorem State.takeChecksumByte_cs : s.takeChecksumByte.cs = s.cs := rfl
@[simp] theorem State.takeChecksumByte_ms : s.takeChecksumByte.ms = s.ms := rfl
@[simp] theorem State.takeChecksumByte_mode : s.takeChecksumByte.mode = s.mode := rfl
@[simp] theorem State.takeChecksumByte_csb : s.takeChecksumByte.csb = s.digest[0] := rfl
@[simp] theorem State.takeChecksumByte_obs : s.takeChecksumByte.obs = s.obs := rfl
@[simp] theorem State.takeChecksumByte_digest : s.takeChecksumByte.digest = Vector.replicate 32 0 := rfl
@[simp] theorem State.takeChecksumByte_err : s.takeChecksumByte.err = s.err := rfl
@[simp] theorem State.takeChecksumByte_csok : s.takeChecksumByte.csok = s.csok := rfl
@[simp] theorem State.takeChecksumByte_vfd : s.takeChecksumByte.vfd = s.vfd := rfl
@[simp] theorem State.takeChecksumByte_host : s.takeChecksumByte.host = s.host := rfl
@[simp] theorem State.takeChecksumByte_rsp : s.takeChecksumByte.rsp = s.rsp := rfl
@[simp] theorem State.takeChecksumByte_hash : s.takeChecksumByte.hash = s.hash := rfl

/-! `State.latch` -/

@[simp] theorem State.latch_buf (c : Status) : (s.latch c).buf = s.buf := rfl
@[simp] theorem State.latch_len (c : Status) : (s.latch c).len = s.len := rfl
@[simp] theorem State.latch_idx (c : Status) : (s.latch c).idx = s.idx := rfl
@[simp] theorem State.latch_cs (c : Status) : (s.latch c).cs = s.cs := rfl
@[simp] theorem State.latch_ms (c : Status) : (s.latch c).ms = s.ms := rfl
@[simp] theorem State.latch_mode (c : Status) : (s.latch c).mode = s.mode := rfl
@[simp] theorem State.latch_csb (c : Status) : (s.latch c).csb = s.csb := rfl
@[simp] theorem State.latch_obs (c : Status) : (s.latch c).obs = s.obs := rfl
@[simp] theorem State.latch_digest (c : Status) : (s.latch c).digest = s.digest := rfl
@[simp] theorem State.latch_err (c : Status) : (s.latch c).err = if s.err = .ok then c else s.err := rfl
@[simp] theorem State.latch_csok (c : Status) : (s.latch c).csok = s.csok := rfl
@[simp] theorem State.latch_vfd (c : Status) : (s.latch c).vfd = s.vfd := rfl
@[simp] theorem State.latch_host (c : Status) : (s.latch c).host = s.host := rfl
@[simp] theorem State.latch_rsp (c : Status) : (s.latch c).rsp = s.rsp := rfl
@[simp] theorem State.latch_hash (c : Status) : (s.latch c).hash = s.hash := rfl

/-! `State.accept` -/

@[simp] theorem State.accept_buf (rest : List HostMove) : (s.accept rest).buf = s.buf := rfl
@[simp] theorem State.accept_len (rest : List HostMove) : (s.accept rest).len = s.len := rfl
@[simp] theorem State.accept_idx (rest : List HostMove) : (s.accept rest).idx = s.idx := rfl
@[simp] theorem State.accept_cs (rest : List HostMove) : (s.accept rest).cs = s.cs := rfl
@[simp] theorem State.accept_ms (rest : List HostMove) : (s.accept rest).ms = s.ms := rfl
@[simp] theorem State.accept_mode (rest : List HostMove) : (s.accept rest).mode = s.mode := rfl
@[simp] theorem State.accept_csb (rest : List HostMove) : (s.accept rest).csb = s.csb := rfl
@[simp] theorem State.accept_obs (rest : List HostMove) : (s.accept rest).obs = s.obs := rfl
@[simp] theorem State.accept_digest (rest : List HostMove) : (s.accept rest).digest = s.digest := rfl
@[simp] theorem State.accept_err (rest : List HostMove) : (s.accept rest).err = s.err := rfl
@[simp] theorem State.accept_csok (rest : List HostMove) : (s.accept rest).csok = s.csok := rfl
@[simp] theorem State.accept_vfd (rest : List HostMove) : (s.accept rest).vfd = s.vfd := rfl
@[simp] theorem State.accept_host (rest : List HostMove) : (s.accept rest).host = rest := rfl
@[simp] theorem State.accept_rsp (rest : List HostMove) : (s.accept rest).rsp = none := rfl
@[simp] theorem State.accept_hash (rest : List HostMove) : (s.accept rest).hash = none := rfl

/-! `State.present` -/

@[simp] theorem State.present_buf (w : Word) : (s.present w).buf = s.buf := rfl
@[simp] theorem State.present_len (w : Word) : (s.present w).len = s.len := rfl
@[simp] theorem State.present_idx (w : Word) : (s.present w).idx = s.idx := rfl
@[simp] theorem State.present_cs (w : Word) : (s.present w).cs = s.cs := rfl
@[simp] theorem State.present_ms (w : Word) : (s.present w).ms = s.ms := rfl
@[simp] theorem State.present_mode (w : Word) : (s.present w).mode = s.mode := rfl
@[simp] theorem State.present_csb (w : Word) : (s.present w).csb = s.csb := rfl
@[simp] theorem State.present_obs (w : Word) : (s.present w).obs = s.obs := rfl
@[simp] theorem State.present_digest (w : Word) : (s.present w).digest = s.digest := rfl
@[simp] theorem State.present_err (w : Word) : (s.present w).err = s.err := rfl
@[simp] theorem State.present_csok (w : Word) : (s.present w).csok = s.csok := rfl
@[simp] theorem State.present_vfd (w : Word) : (s.present w).vfd = s.vfd := rfl
@[simp] theorem State.present_host (w : Word) : (s.present w).host = .command w :: s.host := rfl
@[simp] theorem State.present_rsp (w : Word) : (s.present w).rsp = s.rsp := rfl
@[simp] theorem State.present_hash (w : Word) : (s.present w).hash = s.hash := rfl

/-! `State.wiped` -/

@[simp] theorem State.wiped_buf : s.wiped.buf = Memory.zeroed := rfl
@[simp] theorem State.wiped_len : s.wiped.len = 0 := rfl
@[simp] theorem State.wiped_idx : s.wiped.idx = idxZeroed := rfl
@[simp] theorem State.wiped_cs : s.wiped.cs = 0 := rfl
@[simp] theorem State.wiped_ms : s.wiped.ms = 0 := rfl
@[simp] theorem State.wiped_mode : s.wiped.mode = .idle := rfl
@[simp] theorem State.wiped_csb : s.wiped.csb = 0 := rfl
@[simp] theorem State.wiped_obs : s.wiped.obs = 0 := rfl
@[simp] theorem State.wiped_digest : s.wiped.digest = Vector.replicate 32 0 := rfl
@[simp] theorem State.wiped_err : s.wiped.err = .ok := rfl
@[simp] theorem State.wiped_csok : s.wiped.csok = false := rfl
@[simp] theorem State.wiped_vfd : s.wiped.vfd = false := rfl
@[simp] theorem State.wiped_host : s.wiped.host = s.host := rfl
@[simp] theorem State.wiped_rsp : s.wiped.rsp = s.rsp := rfl
@[simp] theorem State.wiped_hash : s.wiped.hash = s.hash := rfl

/-! `State.assertRst` -/

@[simp] theorem State.assertRst_buf (rest : List HostMove) : (s.assertRst rest).buf = Memory.zeroed := rfl
@[simp] theorem State.assertRst_len (rest : List HostMove) : (s.assertRst rest).len = 0 := rfl
@[simp] theorem State.assertRst_idx (rest : List HostMove) : (s.assertRst rest).idx = idxZeroed := rfl
@[simp] theorem State.assertRst_cs (rest : List HostMove) : (s.assertRst rest).cs = 0 := rfl
@[simp] theorem State.assertRst_ms (rest : List HostMove) : (s.assertRst rest).ms = 0 := rfl
@[simp] theorem State.assertRst_mode (rest : List HostMove) : (s.assertRst rest).mode = .idle := rfl
@[simp] theorem State.assertRst_csb (rest : List HostMove) : (s.assertRst rest).csb = 0 := rfl
@[simp] theorem State.assertRst_obs (rest : List HostMove) : (s.assertRst rest).obs = 0 := rfl
@[simp] theorem State.assertRst_digest (rest : List HostMove) : (s.assertRst rest).digest = Vector.replicate 32 0 := rfl
@[simp] theorem State.assertRst_err (rest : List HostMove) : (s.assertRst rest).err = .ok := rfl
@[simp] theorem State.assertRst_csok (rest : List HostMove) : (s.assertRst rest).csok = false := rfl
@[simp] theorem State.assertRst_vfd (rest : List HostMove) : (s.assertRst rest).vfd = false := rfl
@[simp] theorem State.assertRst_host (rest : List HostMove) : (s.assertRst rest).host = rest := rfl
@[simp] theorem State.assertRst_rsp (rest : List HostMove) : (s.assertRst rest).rsp = none := rfl
@[simp] theorem State.assertRst_hash (rest : List HostMove) : (s.assertRst rest).hash = none := rfl

/-! `State.respond` and `State.raise` -/

/-- `respond` answers the state with the response at the port. -/
@[simp] theorem State.respond_eq (st : Status) (data : Word) :
    s.respond st data = .next { s with rsp := some ⟨st, data⟩ } := rfl

/-- `raise` answers the state with `ERR` latched and the response `(code, 0)`. -/
@[simp] theorem State.raise_eq (c : Status) :
    s.raise c = .next { s with err := if s.err = .ok then c else s.err, rsp := some ⟨c, 0⟩ } := rfl

/-- The end of an illegal word is error entry with its code. -/
@[simp] theorem State.illegalCommand_eq : s.illegalCommand = s.raise .illegalCommand := rfl

@[simp] theorem State.wait_eq : s.wait = s := rfl

/-- Presenting a word by its table bits presents the word. -/
theorem State.withFetchWord_eq (n w : Nat) : s.withFetchWord n w = s.present (BitVec.ofNat 32 (w % 2 ^ n)) := rfl

end Sys2Proof.Machine
end

