-- ==== Sys2Proof/Laws/Exec.lean ====
section
/-! SUPPORT. Everything each meaning can do, said once: if it answers a next state, then it is error entry under the
condition of the command's rule, or the command's effect. -/

namespace Sys2Proof.Machine

variable {s t : State}

theorem execRd11_next {off : Nat} (h : execRd11 off s = .next t) :
    ¬(s.offsetOk off) ∧ t = s.errorEntry .badOffset ∨
    (s.offsetOk off) ∧ s.lenExists ∧
      t = { s with rsp := some ⟨.ok, (s.read11 off).setWidth 32⟩ } := by
  unfold execRd11 at h
  by_cases c : s.offsetOk off
  · rw [if_neg (not_not_intro c)] at h
    by_cases e0 : s.lenExists
    swap
    · rw [if_pos e0] at h; cases h
    rw [if_neg (not_not_intro e0)] at h
    cases h
    exact .inr ⟨c, e0, rfl⟩
  · rw [if_pos c] at h
    cases h
    exact .inl ⟨c, rfl⟩

theorem execWr11_next {val : Index} {off : Nat} (h : execWr11 val off s = .next t) :
    ¬(s.offsetOk off) ∧ t = s.errorEntry .badOffset ∨
    (s.offsetOk off) ∧ s.lenExists ∧
      t = { s with buf := s.buf.write11 s.len.toNat val off, rsp := some ⟨.ok, 0⟩ } := by
  unfold execWr11 at h
  by_cases c : s.offsetOk off
  · rw [if_neg (not_not_intro c)] at h
    by_cases e0 : s.lenExists
    swap
    · rw [if_pos e0] at h; cases h
    rw [if_neg (not_not_intro e0)] at h
    cases h
    exact .inr ⟨c, e0, rfl⟩
  · rw [if_pos c] at h
    cases h
    exact .inl ⟨c, rfl⟩

theorem execUnpk_next (h : execUnpk s = .next t) :
    ¬(s.mode = .encReady) ∧ t = s.errorEntry .badSequence ∨
    (s.mode = .encReady) ∧ s.lenExists ∧ s.wordsExist ∧
      t = { s with idx := s.unpacked, buf := Memory.zeroed, mode := .idle, rsp := some ⟨.ok, s.ms.setWidth 32⟩ } := by
  unfold execUnpk at h
  by_cases c : s.mode = .encReady
  · rw [if_neg (not_not_intro c)] at h
    by_cases e0 : s.lenExists
    swap
    · rw [if_pos e0] at h; cases h
    rw [if_neg (not_not_intro e0)] at h
    by_cases e1 : s.wordsExist
    swap
    · rw [if_pos e1] at h; cases h
    rw [if_neg (not_not_intro e1)] at h
    cases h
    exact .inr ⟨c, e0, e1, rfl⟩
  · rw [if_pos c] at h
    cases h
    exact .inl ⟨c, rfl⟩

theorem execPack_next (h : execPack s = .next t) :
    ¬(s.mode = .dec) ∧ t = s.errorEntry .badSequence ∨
    (s.mode = .dec) ∧ s.lenExists ∧ s.wordsExist ∧
      t = { s with buf := s.packed, rsp := some ⟨.ok, 0⟩ } := by
  unfold execPack at h
  by_cases c : s.mode = .dec
  · rw [if_neg (not_not_intro c)] at h
    by_cases e0 : s.lenExists
    swap
    · rw [if_pos e0] at h; cases h
    rw [if_neg (not_not_intro e0)] at h
    by_cases e1 : s.wordsExist
    swap
    · rw [if_pos e1] at h; cases h
    rw [if_neg (not_not_intro e1)] at h
    cases h
    exact .inr ⟨c, e0, e1, rfl⟩
  · rw [if_pos c] at h
    cases h
    exact .inl ⟨c, rfl⟩

theorem execCfgd_next {ms : Nat} (h : execCfgd ms s = .next t) :
    ¬(wordCountOk ms) ∧ t = s.errorEntry .invalidWordCount ∨
    (wordCountOk ms) ∧
      t = { s with buf := Memory.zeroed, cs := BitVec.ofNat 4 (decCs ms), ms := BitVec.ofNat 5 ms, len := BitVec.ofNat 6 (decLen ms), mode := .dec, rsp := some ⟨.ok, (BitVec.ofNat 6 (decLen ms)).setWidth 32⟩ } := by
  unfold execCfgd at h
  by_cases c : wordCountOk ms
  · rw [if_neg (not_not_intro c)] at h
    cases h
    exact .inr ⟨c, rfl⟩
  · rw [if_pos c] at h
    cases h
    exact .inl ⟨c, rfl⟩

theorem execSetlen_next {n : Nat} (h : execSetlen n s = .next t) :
    ¬(lengthOk n) ∧ t = s.errorEntry .badAddress ∨
    (lengthOk n) ∧
      t = { s with len := BitVec.ofNat 6 n, mode := .idle, rsp := some ⟨.ok, 0⟩ } := by
  unfold execSetlen at h
  by_cases c : lengthOk n
  · rw [if_neg (not_not_intro c)] at h
    cases h
    exact .inr ⟨c, rfl⟩
  · rw [if_pos c] at h
    cases h
    exact .inl ⟨c, rfl⟩

theorem execPutb_next {a : Nat} {d : Byte} (h : execPutb a d s = .next t) :
    ¬(s.addressOk a) ∧ t = s.errorEntry .badAddress ∨
    (s.addressOk a) ∧ s.lenExists ∧
      t = { s with buf := s.buf.write a d, rsp := some ⟨.ok, 0⟩ } := by
  unfold execPutb at h
  by_cases c : s.addressOk a
  · rw [if_neg (not_not_intro c)] at h
    by_cases e0 : s.lenExists
    swap
    · rw [if_pos e0] at h; cases h
    rw [if_neg (not_not_intro e0)] at h
    cases h
    exact .inr ⟨c, e0, rfl⟩
  · rw [if_pos c] at h
    cases h
    exact .inl ⟨c, rfl⟩

theorem execGetb_next {a : Nat} (h : execGetb a s = .next t) :
    ¬(s.addressOk a) ∧ t = s.errorEntry .badAddress ∨
    (s.addressOk a) ∧ s.lenExists ∧
      t = { s with rsp := some ⟨.ok, (s.buf.read a).setWidth 32⟩ } := by
  unfold execGetb at h
  by_cases c : s.addressOk a
  · rw [if_neg (not_not_intro c)] at h
    by_cases e0 : s.lenExists
    swap
    · rw [if_pos e0] at h; cases h
    rw [if_neg (not_not_intro e0)] at h
    cases h
    exact .inr ⟨c, e0, rfl⟩
  · rw [if_pos c] at h
    cases h
    exact .inl ⟨c, rfl⟩

theorem execPuti_next {wi : Nat} {val : Index} (h : execPuti wi val s = .next t) :
    ¬(indexOk wi) ∧ t = s.errorEntry .badAddress ∨
    (indexOk wi) ∧
      t = { s with idx := idxPut s.idx wi val, rsp := some ⟨.ok, 0⟩ } := by
  unfold execPuti at h
  by_cases c : indexOk wi
  · rw [if_neg (not_not_intro c)] at h
    cases h
    exact .inr ⟨c, rfl⟩
  · rw [if_pos c] at h
    cases h
    exact .inl ⟨c, rfl⟩

theorem execGeti_next {wi : Nat} (h : execGeti wi s = .next t) :
    ¬(indexOk wi) ∧ t = s.errorEntry .badAddress ∨
    (indexOk wi) ∧
      t = { s with rsp := some ⟨.ok, (idxGet s.idx wi).setWidth 32⟩ } := by
  unfold execGeti at h
  by_cases c : indexOk wi
  · rw [if_neg (not_not_intro c)] at h
    cases h
    exact .inr ⟨c, rfl⟩
  · rw [if_pos c] at h
    cases h
    exact .inl ⟨c, rfl⟩

theorem execStat_next {sel : Nat} (h : execStat sel s = .next t) :
    ¬(selectorOk sel) ∧ t = s.errorEntry .badAddress ∨
    (selectorOk sel) ∧
      t = { s with rsp := some ⟨.ok, if sel = 0 then s.status else s.aux⟩ } := by
  unfold execStat at h
  by_cases c : selectorOk sel
  · refine .inr ⟨c, ?_⟩
    rw [if_neg (not_not_intro c)] at h
    split at h <;> cases h <;> simp [*]
  · rw [if_pos c] at h
    cases h
    exact .inl ⟨c, rfl⟩

theorem execCfge_next {n : Nat} (h : execCfge n s = .next t) :
    (∃ e, entropyError n = some e ∧ t = s.errorEntry e) ∨
    entropyError n = none ∧
      t = { s with cs := BitVec.ofNat 4 (encCs n), ms := BitVec.ofNat 5 (encMs n), len := BitVec.ofNat 6 n,
                   mode := .encLoad, rsp := some ⟨.ok, (BitVec.ofNat 5 (encMs n)).setWidth 32⟩ } := by
  unfold execCfge at h
  cases c : entropyError n with
  | some e => rw [c] at h; cases h; exact .inl ⟨e, rfl, rfl⟩
  | none => rw [c] at h; cases h; exact .inr ⟨rfl, rfl⟩

/-- The state after `CSAPP`, when the engine answers `d`. -/
theorem csappEffect_eq (d : Config.Digest) (s : State) :
    csappEffect d s = .next
      { s with csb := d[0], digest := Vector.replicate 32 0, hash := some ⟨s.message, d⟩,
               buf := s.buf.write s.eb d[0], len := BitVec.ofNat 6 (s.eb + 1), mode := .encReady,
               rsp := some ⟨.ok, d[0].setWidth 32⟩ } := rfl

theorem execCsapp_next (h : execCsapp s = .next t) :
    ¬(s.mode = .encLoad) ∧ t = s.errorEntry .badSequence ∨
    s.mode = .encLoad ∧ s.appendedByteExists ∧ csappEffect (Config.sha256 s.message) s = .next t := by
  unfold execCsapp at h
  by_cases c : s.mode = .encLoad
  · rw [if_neg (not_not_intro c)] at h
    by_cases e : s.appendedByteExists
    · rw [if_neg (not_not_intro e)] at h; exact .inr ⟨c, e, h⟩
    · rw [if_pos e] at h; cases h
  · rw [if_pos c] at h; cases h; exact .inl ⟨c, rfl⟩

/-- The state after `CSVFY` but for `ERR` and the response, when the engine answers `d`. -/
theorem csvfyCheck_eq (d : Config.Digest) (s : State) :
    csvfyCheck d s =
      { s with obs := s.buf.read s.eb, csb := d[0], digest := Vector.replicate 32 0,
               hash := some ⟨s.message, d⟩, csok := checksumAgrees s.cs d[0] (s.buf.read s.eb), vfd := true,
               buf := Memory.zeroed, mode := .idle } := rfl

/-- `CSVFY` ends `OK` when the checksum bits agree, and `InvalidChecksum` after the same effects when not. -/
theorem csvfyEffect_eq (d : Config.Digest) (s : State) :
    csvfyEffect d s = .next
      (if checksumAgrees s.cs d[0] (s.buf.read s.eb) then
        { csvfyCheck d s with rsp := some ⟨.ok, (csvfyCheck d s).aux⟩ }
      else
        { csvfyCheck d s with err := if s.err = .ok then .invalidChecksum else s.err,
                              rsp := some ⟨.invalidChecksum, (csvfyCheck d s).aux⟩ }) := by
  have e : (csvfyCheck d s).csok = checksumAgrees s.cs d[0] (s.buf.read s.eb) := rfl
  unfold csvfyEffect
  simp only [e]
  split <;> rfl

theorem execCsvfy_next (h : execCsvfy s = .next t) :
    ¬(s.mode = .dec) ∧ t = s.errorEntry .badSequence ∨
    s.mode = .dec ∧ csmaskDefined s.cs ∧ csvfyEffect (Config.sha256 s.message) s = .next t := by
  unfold execCsvfy at h
  by_cases c : s.mode = .dec
  · rw [if_neg (not_not_intro c)] at h
    by_cases e : csmaskDefined s.cs
    · rw [if_neg (not_not_intro e)] at h; exact .inr ⟨c, e, h⟩
    · rw [if_pos e] at h; cases h
  · rw [if_pos c] at h; cases h; exact .inl ⟨c, rfl⟩

theorem execWipe_next (h : execWipe s = .next t) : t = { s.wiped with rsp := some ⟨.ok, 0⟩ } := by
  cases h; rfl

/-- What `WIPE` leaves is the reset state, but for what stands at the ports. -/
theorem wiped_eq (s : State) : s.wiped = { State.reset with host := s.host, rsp := s.rsp, hash := s.hash } := rfl

end Sys2Proof.Machine
end

