-- ==== Sys2Proof/Laws/Memory.lean ====
section
/-! SUPPORT. The buffer as bytes: read after write, that every operation keeps the canonical form, and that in
canonical form equal contents are equal data. -/

namespace Sys2Proof.Machine

@[simp] theorem Memory.read_nil (a : Nat) : Memory.read [] a = 0 := rfl

@[simp] theorem Memory.read_zeroed (a : Nat) : Memory.zeroed.read a = 0 := rfl

@[simp] theorem Memory.bit_zeroed (o : Nat) : Memory.zeroed.bit o = false := by simp [Memory.bit]

/-- A byte above every cell of a rising list is blank. -/
theorem Memory.read_below {m : Memory} {a : Nat} (h : ∀ p ∈ m, a < p.1) : m.read a = 0 := by
  induction m with
  | nil => rfl
  | cons p m ih =>
    obtain ⟨b, v⟩ := p
    have hb : a < b := h (b, v) (by simp)
    rw [Memory.read, if_neg (by omega)]
    exact ih fun p hp => h p (by simp [hp])

/-- Reading the byte just written, and any other, in a buffer whose addresses rise. -/
theorem Memory.read_write_of_rising {m : Memory} (h : m.Pairwise fun p q => p.1 < q.1) (a b : Nat) (v : Byte) :
    (m.write a v).read b = if b = a then v else m.read b := by
  induction m with
  | nil =>
    by_cases hv : v = Memory.blank
    · rw [Memory.write, if_pos hv, hv]; exact (ite_self _).symm
    · rw [Memory.write, if_neg hv]; rfl
  | cons p m ih =>
    obtain ⟨c, w⟩ := p
    rw [List.pairwise_cons] at h
    have above : ∀ e, e ≤ c → Memory.read m e = 0 := fun e he =>
      Memory.read_below fun q hq => by have : c < q.1 := h.1 q hq; omega
    rw [Memory.write]
    by_cases hac : a < c
    · rw [if_pos hac]
      by_cases hv : v = Memory.blank
      · rw [if_pos hv]
        by_cases hb : b = a
        · subst hb
          rw [if_pos rfl, Memory.read, if_neg (by omega), above b (by omega), hv]; rfl
        · rw [if_neg hb]
      · rw [if_neg hv, Memory.read]
    · rw [if_neg hac]
      by_cases he : a = c
      · subst he
        rw [if_pos rfl]
        by_cases hv : v = Memory.blank
        · rw [if_pos hv]
          by_cases hb : b = a
          · subst hb; rw [if_pos rfl, above b le_rfl, hv]; rfl
          · rw [if_neg hb, Memory.read, if_neg hb]
        · rw [if_neg hv, Memory.read]
          by_cases hb : b = a
          · simp [hb]
          · rw [if_neg hb, if_neg hb, Memory.read, if_neg hb]
      · rw [if_neg he, Memory.read, Memory.read]
        by_cases hbc : b = c
        · rw [if_pos hbc, if_pos hbc, if_neg (by omega)]
        · rw [if_neg hbc, if_neg hbc, ih h.2]

/-- Read after write (20_memory.md R70 (a)). -/
theorem Memory.read_write {m : Memory} (h : m.wf) (a b : Nat) (v : Byte) :
    (m.write a v).read b = if b = a then v else m.read b := Memory.read_write_of_rising h.1 a b v

/-- A cell of a buffer after a write is the byte written or a cell from before. -/
theorem Memory.mem_write {m : Memory} {a : Nat} {v : Byte} {p : Host.Cell} (h : p ∈ m.write a v) :
    p = (a, v) ∧ v ≠ Memory.blank ∨ p ∈ m := by
  induction m with
  | nil =>
    by_cases hv : v = Memory.blank
    · simp [Memory.write, hv] at h
    · left; simpa [Memory.write, hv] using h
  | cons q m ih =>
    obtain ⟨c, w⟩ := q
    rw [Memory.write] at h
    split at h
    · split at h
      · exact .inr h
      · rename_i hv
        rcases List.mem_cons.mp h with h | h
        · exact .inl ⟨h, hv⟩
        · exact .inr h
    · split at h
      · split at h
        · exact .inr (List.mem_cons_of_mem _ h)
        · rename_i hv
          rcases List.mem_cons.mp h with h | h
          · exact .inl ⟨h, hv⟩
          · exact .inr (List.mem_cons_of_mem _ h)
      · rcases List.mem_cons.mp h with h | h
        · exact .inr (h ▸ List.mem_cons_self)
        · rcases ih h with h | h
          · exact .inl h
          · exact .inr (List.mem_cons_of_mem _ h)

/-- A write keeps the addresses rising. -/
theorem Memory.write_rising {m : Memory} (h : m.Pairwise fun p q => p.1 < q.1) (a : Nat) (v : Byte) :
    (m.write a v).Pairwise fun p q => p.1 < q.1 := by
  induction m with
  | nil => by_cases hv : v = Memory.blank <;> simp [Memory.write, hv]
  | cons q m ih =>
    obtain ⟨c, w⟩ := q
    have hc := List.pairwise_cons.mp h
    rw [Memory.write]
    split
    · rename_i hac
      split
      · exact h
      · refine List.pairwise_cons.mpr ⟨fun q hq => ?_, h⟩
        rcases List.mem_cons.mp hq with rfl | hq
        · exact hac
        · exact Nat.lt_trans hac (hc.1 q hq)
    · split
      · rename_i he
        split
        · exact hc.2
        · exact List.pairwise_cons.mpr ⟨fun q hq => he ▸ hc.1 q hq, hc.2⟩
      · rename_i hna hne
        refine List.pairwise_cons.mpr ⟨fun q hq => ?_, ih hc.2⟩
        rcases Memory.mem_write hq with ⟨rfl, -⟩ | hq
        · show c < a
          omega
        · exact hc.1 q hq

/-- A write to a byte that exists keeps the canonical form. -/
theorem Memory.write_wf {m : Memory} (h : m.wf) {a : Nat} (ha : a < 33) (v : Byte) : (m.write a v).wf := by
  refine ⟨Memory.write_rising h.1 a v, fun p hp => ?_⟩
  rcases Memory.mem_write hp with ⟨rfl, hv⟩ | hp
  · exact ⟨hv, ha⟩
  · exact h.2 p hp

theorem Memory.zeroed_wf : Memory.zeroed.wf := ⟨List.Pairwise.nil, by simp [Memory.zeroed]⟩

/-- A byte that does not exist reads as 0. -/
theorem Memory.read_absent {m : Memory} (h : m.wf) {a : Nat} (ha : 33 ≤ a) : m.read a = 0 := by
  have hm := h.2
  clear h
  induction m with
  | nil => rfl
  | cons p m ih =>
    obtain ⟨b, v⟩ := p
    have hb : b < 33 := (hm (b, v) (by simp)).2
    rw [Memory.read, if_neg (by omega)]
    exact ih fun q hq => hm q (by simp [hq])

/-- In canonical form, buffers with the same bytes are the same list. -/
theorem Memory.ext_of_read {m m' : Memory} (h : m.wf) (h' : m'.wf) (e : ∀ a, m.read a = m'.read a) : m = m' := by
  have key : ∀ (m m' : Memory), m.Pairwise (fun p q => p.1 < q.1) → m'.Pairwise (fun p q => p.1 < q.1) →
      (∀ p ∈ m, p.2 ≠ 0) → (∀ p ∈ m', p.2 ≠ 0) → (∀ a, m.read a = m'.read a) → m = m' := by
    intro m
    induction m with
    | nil =>
      intro m' _ _ _ n' e
      cases m' with
      | nil => rfl
      | cons q m' =>
        have := e q.1
        simp [Memory.read] at this
        exact absurd this.symm (n' q (by simp))
    | cons p m ih =>
      intro m' r r' n n' e
      cases m' with
      | nil =>
        have := e p.1
        simp [Memory.read] at this
        exact absurd this (n p (by simp))
      | cons q m' =>
        obtain ⟨b, v⟩ := p
        obtain ⟨c, w⟩ := q
        rw [List.pairwise_cons] at r r'
        have hb : Memory.read m b = 0 := Memory.read_below r.1
        have hc : Memory.read m' c = 0 := Memory.read_below r'.1
        have hbc : b = c := by
          rcases Nat.lt_trichotomy b c with hlt | rfl | hlt
          · have := e b
            rw [Memory.read, if_pos rfl, Memory.read, if_neg (by omega),
              Memory.read_below fun q hq => Nat.lt_trans hlt (r'.1 q hq)] at this
            exact absurd this (n (b, v) (by simp))
          · rfl
          · have := e c
            rw [Memory.read, if_neg (by omega), Memory.read, if_pos rfl,
              Memory.read_below fun q hq => Nat.lt_trans hlt (r.1 q hq)] at this
            exact absurd this.symm (n' (c, w) (by simp))
        subst hbc
        have hvw : v = w := by simpa [Memory.read] using e b
        subst hvw
        congr 1
        refine ih m' r.2 r'.2 (fun p hp => n p (by simp [hp])) (fun p hp => n' p (by simp [hp])) fun a => ?_
        by_cases ha : a = b
        · rw [ha, hb, hc]
        · simpa [Memory.read, ha] using e a
  exact key m m' h.1 h'.1 (fun p hp => (h.2 p hp).1) (fun p hp => (h'.2 p hp).1) e

end Sys2Proof.Machine
end

