-- ==== Sys2Proof/Laws/Fields.lean ====
section
/-! SUPPORT. The field primitives bit by bit: the window, `read11`, `write11`, and the two loops. -/

namespace Sys2Proof.Machine

/-! ### The window -/

/-- Bit `j` of the field taken from a window. -/
theorem getLsbD_windowField (w : BitVec 24) (r j : Nat) (hj : j < 11) :
    (windowField w r).getLsbD j = w.getLsbD (13 - r + j) := by
  have mask : (0x7FF#24).getLsbD j = true := by
    have : ∀ i < 11, (0x7FF#24).getLsbD i = true := by decide
    exact this j hj
  rw [windowField, BitVec.getLsbD_setWidth, BitVec.getLsbD_and, mask, BitVec.getLsbD_ushiftRight]
  simp [hj]

/-- Bit `i` of a value placed in the window. -/
theorem getLsbD_placeField (v : Index) (r i : Nat) (hi : i < 24) :
    (placeField v r).getLsbD i = (decide (13 - r ≤ i) && v.getLsbD (i - (13 - r))) := by
  by_cases h : i < 13 - r
  · simp [placeField, h, hi, Nat.not_le.mpr h]
  · simp [placeField, hi, Nat.not_lt.mp h]

/-- Bit `i` of the 24-bit window of three bytes, the first on top. -/
theorem getLsbD_window (m : Memory) (len k i : Nat) :
    (m.window len k).getLsbD i =
      if i < 8 then (m.guarded len (k + 2)).getLsbD i
      else if i < 16 then (m.guarded len (k + 1)).getLsbD (i - 8)
      else (m.guarded len k).getLsbD (i - 16) := by
  rw [Memory.window, BitVec.getLsbD_append]
  by_cases h : i < 8
  · simp [h]
  · rw [BitVec.getLsbD_append]
    by_cases h' : i < 16
    · have : i - 8 < 8 := by omega
      simp [h, h', this]
    · have : ¬i - 8 < 8 := by omega
      have e : i - 8 - 8 = i - 16 := by omega
      simp [h, h', this, e]

/-- `read11` gives the bits at `off, ..., off + 10`, the first most significant. -/
theorem getLsbD_read11 {m : Memory} {len off j : Nat} (h : off + 11 ≤ 8 * len) (hj : j < 11) :
    (m.read11 len off).getLsbD j = m.bit (off + 10 - j) := by
  rw [Memory.read11, getLsbD_windowField _ _ _ hj, getLsbD_window, Memory.bit]
  have key : ∀ k i, k < len → (off + 10 - j) / 8 = k → 7 - (off + 10 - j) % 8 = i →
      (m.guarded len k).getLsbD i = (m.read ((off + 10 - j) / 8)).getLsbD (7 - (off + 10 - j) % 8) := by
    intro k i hk e e'
    rw [Memory.guarded, if_pos hk, e, e']
  split
  · exact key _ _ (by omega) (by omega) (by omega)
  · split
    · exact key _ _ (by omega) (by omega) (by omega)
    · exact key _ _ (by omega) (by omega) (by omega)

/-- The guard is all of a buffer that `read11` sees. -/
theorem read11_congr {m m' : Memory} {len : Nat} (h : ∀ a < len, m.read a = m'.read a) (off : Nat) :
    m.read11 len off = m'.read11 len off := by
  have g : ∀ a, m.guarded len a = m'.guarded len a := fun a => by
    by_cases ha : a < len
    · simp [Memory.guarded, ha, h a ha]
    · simp [Memory.guarded, ha]
  simp [Memory.read11, Memory.window, g]

/-! ### OR-writes -/

/-- What one byte of `MemOr` does. -/
theorem read_orByte {m : Memory} (h : m.wf) (len a b : Nat) (v : Byte) :
    (m.orByte len a v).read b = if b = a ∧ a < len then m.read b ||| v else m.read b := by
  unfold Memory.orByte
  by_cases ha : a < len
  · rw [if_pos ha, Memory.read_write h]
    by_cases hb : b = a
    · simp [hb, ha]
    · simp [hb]
  · simp [ha]

theorem orByte_wf {m : Memory} (h : m.wf) {len : Nat} (hl : len ≤ 33) (a : Nat) (v : Byte) :
    (m.orByte len a v).wf := by
  unfold Memory.orByte
  split
  · exact Memory.write_wf h (by omega) _
  · exact h

theorem orWindow_wf {m : Memory} (h : m.wf) {len : Nat} (hl : len ≤ 33) (k : Nat) (w : BitVec 24) :
    (m.orWindow len k w).wf := orByte_wf (orByte_wf (orByte_wf h hl _ _) hl _ _) hl _ _

theorem write11_wf {m : Memory} (h : m.wf) {len : Nat} (hl : len ≤ 33) (v : Index) (off : Nat) :
    (m.write11 len v off).wf := orWindow_wf h hl _ _

/-- What `MemOr(k, 3, w)` does to each byte. -/
theorem read_orWindow {m : Memory} (h : m.wf) {len : Nat} (hl : len ≤ 33) (k : Nat) (w : BitVec 24) (b : Nat) :
    (m.orWindow len k w).read b =
      if b < len ∧ b = k then m.read b ||| w.extractLsb' 16 8
      else if b < len ∧ b = k + 1 then m.read b ||| w.extractLsb' 8 8
      else if b < len ∧ b = k + 2 then m.read b ||| w.extractLsb' 0 8
      else m.read b := by
  have h1 := orByte_wf h hl k (w.extractLsb' 16 8)
  have h2 := orByte_wf h1 hl (k + 1) (w.extractLsb' 8 8)
  rw [Memory.orWindow, read_orByte h2, read_orByte h1, read_orByte h]
  by_cases hb : b < len
  · by_cases h0 : b = k
    · subst h0; simp [hb]
    · by_cases h1 : b = k + 1
      · subst h1; simp [hb]
      · by_cases h2 : b = k + 2
        · subst h2; simp [hb]
        · simp [h0, h1, h2]
  · have : ∀ c, ¬(b = c ∧ c < len) := fun c hc => hb (by omega)
    simp [this, hb]

/-- A byte that `write11` does not reach, or at or above the length, is unchanged. -/
theorem read_write11_other {m : Memory} (h : m.wf) {len : Nat} (hl : len ≤ 33) (v : Index) (off b : Nat)
    (hb : len ≤ b ∨ b < off / 8 ∨ off / 8 + 2 < b) : (m.write11 len v off).read b = m.read b := by
  rw [Memory.write11, read_orWindow h hl, if_neg (by omega), if_neg (by omega), if_neg (by omega)]

/-- `write11` bit by bit: the field's bits become old OR new, every other bit is unchanged. -/
theorem bit_write11 {m : Memory} (h : m.wf) {len off : Nat} (hl : len ≤ 33) (ho : off + 11 ≤ 8 * len) (v : Index)
    (o : Nat) :
    (m.write11 len v off).bit o = (m.bit o || (decide (off ≤ o ∧ o ≤ off + 10) && v.getLsbD (off + 10 - o))) := by
  rw [Memory.bit, Memory.bit, Memory.write11, read_orWindow h hl]
  have hv : ∀ i, 11 ≤ i → v.getLsbD i = false := fun i hi => BitVec.getLsbD_of_ge v i hi
  have key : ∀ lo, lo ≤ 16 →
      (m.read (o / 8) ||| (placeField v (off % 8)).extractLsb' lo 8).getLsbD (7 - o % 8) =
        ((m.read (o / 8)).getLsbD (7 - o % 8) || (decide (13 - off % 8 ≤ lo + (7 - o % 8)) &&
          v.getLsbD (lo + (7 - o % 8) - (13 - off % 8)))) := by
    intro lo hlo
    have h8 : 7 - o % 8 < 8 := by omega
    rw [BitVec.getLsbD_or, BitVec.getLsbD_extractLsb', getLsbD_placeField _ _ _ (by omega)]
    simp [h8]
  have fin : ∀ lo, lo ≤ 16 → lo + (7 - o % 8) + (8 * (o / 8) + o % 8) = 23 + 8 * (off / 8) →
      (decide (13 - off % 8 ≤ lo + (7 - o % 8)) && v.getLsbD (lo + (7 - o % 8) - (13 - off % 8))) =
        (decide (off ≤ o ∧ o ≤ off + 10) && v.getLsbD (off + 10 - o)) := by
    intro lo hlo e
    by_cases h1 : o ≤ off + 10
    · have e1 : lo + (7 - o % 8) - (13 - off % 8) = off + 10 - o := by omega
      rw [e1]
      by_cases h2 : off ≤ o
      · have e2 : 13 - off % 8 ≤ lo + (7 - o % 8) := by omega
        simp [h1, h2, e2]
      · simp [hv (off + 10 - o) (by omega)]
    · have e2 : ¬13 - off % 8 ≤ lo + (7 - o % 8) := by omega
      simp [h1, e2]
  by_cases c0 : o / 8 < len ∧ o / 8 = off / 8
  · rw [if_pos c0, key 16 (by omega), fin 16 (by omega) (by omega)]
  · rw [if_neg c0]
    by_cases c1 : o / 8 < len ∧ o / 8 = off / 8 + 1
    · rw [if_pos c1, key 8 (by omega), fin 8 (by omega) (by omega)]
    · rw [if_neg c1]
      by_cases c2 : o / 8 < len ∧ o / 8 = off / 8 + 2
      · rw [if_pos c2, key 0 (by omega), fin 0 (by omega) (by omega)]
      · rw [if_neg c2]
        have : ¬(off ≤ o ∧ o ≤ off + 10) := by omega
        simp [this]

/-- A byte is its eight bits. -/
theorem read_eq_of_bits {m m' : Memory} {a : Nat} (h : ∀ i < 8, m.bit (8 * a + i) = m'.bit (8 * a + i)) :
    m.read a = m'.read a := by
  apply BitVec.eq_of_getLsbD_eq
  intro i hi
  have e := h (7 - i) (by omega)
  rw [Memory.bit, Memory.bit, show (8 * a + (7 - i)) / 8 = a by omega,
    show 7 - (8 * a + (7 - i)) % 8 = i by omega] at e
  exact e

/-- In canonical form, buffers with the same bits are the same list. -/
theorem Memory.ext_of_bits {m m' : Memory} (h : m.wf) (h' : m'.wf) (e : ∀ o, m.bit o = m'.bit o) : m = m' :=
  Memory.ext_of_read h h' fun _ => read_eq_of_bits fun _ _ => e _

/-! ### The index registers -/

theorem idxGet_eq {x : IndexFile} {i : Nat} (h : i < 24) : idxGet x i = x[i] := by simp [idxGet, h]

theorem idxGet_idxPut (x : IndexFile) (i j : Nat) (v : Index) (hi : i < 24) :
    idxGet (idxPut x i v) j = if j = i then v else idxGet x j := by
  unfold idxGet idxPut
  rw [Vector.getElem?_setIfInBounds]
  by_cases h : j = i
  · subst h; simp [hi]
  · simp [h, Ne.symm h]

/-- Index files with the same registers are the same. -/
theorem IndexFile.ext_of_idxGet {x y : IndexFile} (h : ∀ i < 24, idxGet x i = idxGet y i) : x = y := by
  apply Vector.ext
  intro i hi
  have := h i hi
  rwa [idxGet_eq hi, idxGet_eq hi] at this

@[simp] theorem idxGet_zeroed (i : Nat) : idxGet idxZeroed i = 0 := by
  unfold idxGet idxZeroed
  rw [Vector.getElem?_replicate]
  split <;> rfl

/-! ### The loops -/

/-- The first loop of `UNPK` writes the fields to the first `n` registers and leaves the rest. -/
theorem idxGet_unpackLoop (m : Memory) (len : Nat) (x : IndexFile) (n : Nat) (hn : n ≤ 24) (i : Nat) :
    idxGet (unpackLoop m len x n) i = if i < n then m.read11 len (11 * i) else idxGet x i := by
  induction n with
  | zero => simp [unpackLoop]
  | succ n ih =>
    rw [unpackLoop, idxGet_idxPut _ _ _ _ (by omega), ih (by omega)]
    by_cases h : i = n
    · simp [h]
    · have : i < n + 1 ↔ i < n := by omega
      simp [h, this]

/-- The second loop of `UNPK` zeroes `n` registers from `a` on. -/
theorem idxGet_clearLoop (x : IndexFile) (a n : Nat) (hn : a + n ≤ 24) (i : Nat) :
    idxGet (clearLoop x a n) i = if a ≤ i ∧ i < a + n then 0 else idxGet x i := by
  induction n with
  | zero => simp [clearLoop]
  | succ n ih =>
    rw [clearLoop, idxGet_idxPut _ _ _ _ (by omega), ih (by omega)]
    by_cases h : i = a + n
    · simp [h]
    · have : (a ≤ i ∧ i < a + (n + 1)) ↔ (a ≤ i ∧ i < a + n) := by omega
      simp [h, this]

/-- The index file after `UNPK`. -/
theorem idxGet_unpacked {s : State} (h : s.ms.toNat ≤ 24) {i : Nat} (hi : i < 24) :
    idxGet s.unpacked i = if i < s.ms.toNat then s.read11 (11 * i) else 0 := by
  rw [State.unpacked, idxGet_clearLoop _ _ _ (by simp only [Config.idxWords]; omega),
    idxGet_unpackLoop _ _ _ _ h, State.read11]
  by_cases hm : i < s.ms.toNat
  · rw [if_neg (by omega), if_pos hm, if_pos hm]
  · rw [if_pos (by simp only [Config.idxWords]; omega), if_neg hm]

theorem packLoop_wf {m : Memory} (h : m.wf) {len : Nat} (hl : len ≤ 33) (x : IndexFile) (n : Nat) :
    (packLoop m len x n).wf := by
  induction n with
  | zero => exact h
  | succ n ih => exact write11_wf ih hl _ _

/-- `PACK` bit by bit: the bits of the first `n` fields become old OR the index's, every other bit is unchanged. -/
theorem bit_packLoop {m : Memory} (h : m.wf) {len : Nat} (hl : len ≤ 33) (x : IndexFile) {n : Nat}
    (hn : 11 * n ≤ 8 * len) (o : Nat) :
    (packLoop m len x n).bit o =
      (m.bit o || (decide (o < 11 * n) && (idxGet x (o / 11)).getLsbD (10 - o % 11))) := by
  induction n with
  | zero => simp [packLoop]
  | succ n ih =>
    rw [packLoop, bit_write11 (packLoop_wf h hl x n) hl (by omega), ih (by omega)]
    by_cases h1 : o < 11 * n
    · have : ¬(11 * n ≤ o ∧ o ≤ 11 * n + 10) := by omega
      have h2 : o < 11 * (n + 1) := by omega
      simp [h1, h2, this]
    · by_cases h2 : o < 11 * (n + 1)
      · have e : o / 11 = n := by omega
        have e' : 11 * n + 10 - o = 10 - o % 11 := by omega
        have c : 11 * n ≤ o ∧ o ≤ 11 * n + 10 := by omega
        simp [h1, h2, c, e, e']
      · have : ¬(11 * n ≤ o ∧ o ≤ 11 * n + 10) := by omega
        simp [h1, h2, this]

/-- Bytes at or above the length are unchanged by `PACK`. -/
theorem read_packLoop_above {m : Memory} (h : m.wf) {len : Nat} (hl : len ≤ 33) (x : IndexFile) (n a : Nat)
    (ha : len ≤ a) : (packLoop m len x n).read a = m.read a := by
  induction n with
  | zero => rfl
  | succ n ih => rw [packLoop, read_write11_other (packLoop_wf h hl x n) hl _ _ _ (.inl ha), ih]

end Sys2Proof.Machine
end

