-- ==== Sys2Proof/Laws/PerInstr.lean ====
section
/-! SUPPORT. Laws of every command as syntax, one lemma per constructor. Family `OpcodeField`: the encoded word
holds the command's opcode in bits 31:28 (30_encoding.md R90, R91) and 0 in every must-be-zero bit (R92 to R96). -/

namespace Sys2Proof.Laws.OpcodeField

/-- `OP` of each command (30_encoding.md R91). -/
def opcode : Instr → BitVec 4
  | .rd11 _ => 1
  | .wr11 _ _ => 2
  | .csapp => 3
  | .csvfy => 4
  | .cfge _ => 5
  | .unpk => 6
  | .cfgd _ => 7
  | .pack => 8
  | .setlen _ => 9
  | .putb _ _ => 10
  | .getb _ => 11
  | .puti _ _ => 12
  | .geti _ => 13
  | .wipe => 14
  | .stat _ => 15

/-- The must-be-zero bits of each command's format, unused operand fields among them
(30_encoding.md R92 to R96; 93_implementation_defined.md V2, V3). -/
def zeroBits : Instr → Word
  | .rd11 _ => 0x0FFFFE00
  | .wr11 _ _ => 0x0FF00000
  | .csapp => 0x0FFFFFFF
  | .csvfy => 0x0FFFFFFF
  | .cfge _ => 0x0FFFFFC0
  | .unpk => 0x0FFFFFFF
  | .cfgd _ => 0x0FFFFFC0
  | .pack => 0x0FFFFFFF
  | .setlen _ => 0x0FFFFFC0
  | .putb _ _ => 0x0FFFC000
  | .getb _ => 0x0FFFC0FF
  | .puti _ _ => 0x0FFF0000
  | .geti _ => 0x0FFF07FF
  | .wipe => 0x0FFFFFFF
  | .stat _ => 0x0FFFFFC0

/-- The encoded word's opcode field is the command's, and its must-be-zero bits are 0. -/
def Statement (i : Instr) : Prop := fieldOp (encode i) = opcode i ∧ encode i &&& zeroBits i = 0

theorem rd11 (off : Nat) : Statement (.rd11 off) := by
  constructor
  · simp only [fieldOp, encode, extract_or]
    rw [extract_place_apart (width := 9) (lo := 0) (by omega) (by omega)]
    rfl
  · simp only [encode, zeroBits, or_and]
    rw [place_and_mask (width := 9) (lo := 0) (by decide)]
    rfl

theorem wr11 (val : Index) (off : Nat) : Statement (.wr11 val off) := by
  constructor
  · simp only [fieldOp, encode, extract_or]
    rw [extract_place_apart (width := 11) (lo := 9) (by omega) (by omega)]
    rw [extract_place_apart (width := 9) (lo := 0) (by omega) (by omega)]
    rfl
  · simp only [encode, zeroBits, or_and]
    rw [place_and_mask (width := 11) (lo := 9) (by decide)]
    rw [place_and_mask (width := 9) (lo := 0) (by decide)]
    rfl

theorem csapp : Statement .csapp := ⟨rfl, rfl⟩

theorem csvfy : Statement .csvfy := ⟨rfl, rfl⟩

theorem cfge (n : Nat) : Statement (.cfge n) := by
  constructor
  · simp only [fieldOp, encode, extract_or]
    rw [extract_place_apart (width := 6) (lo := 0) (by omega) (by omega)]
    rfl
  · simp only [encode, zeroBits, or_and]
    rw [place_and_mask (width := 6) (lo := 0) (by decide)]
    rfl

theorem unpk : Statement .unpk := ⟨rfl, rfl⟩

theorem cfgd (ms : Nat) : Statement (.cfgd ms) := by
  constructor
  · simp only [fieldOp, encode, extract_or]
    rw [extract_place_apart (width := 6) (lo := 0) (by omega) (by omega)]
    rfl
  · simp only [encode, zeroBits, or_and]
    rw [place_and_mask (width := 6) (lo := 0) (by decide)]
    rfl

theorem pack : Statement .pack := ⟨rfl, rfl⟩

theorem setlen (n : Nat) : Statement (.setlen n) := by
  constructor
  · simp only [fieldOp, encode, extract_or]
    rw [extract_place_apart (width := 6) (lo := 0) (by omega) (by omega)]
    rfl
  · simp only [encode, zeroBits, or_and]
    rw [place_and_mask (width := 6) (lo := 0) (by decide)]
    rfl

theorem putb (a : Nat) (d : Byte) : Statement (.putb a d) := by
  constructor
  · simp only [fieldOp, encode, extract_or]
    rw [extract_place_apart (width := 6) (lo := 8) (by omega) (by omega)]
    rw [extract_place_apart (width := 8) (lo := 0) (by omega) (by omega)]
    rfl
  · simp only [encode, zeroBits, or_and]
    rw [place_and_mask (width := 6) (lo := 8) (by decide)]
    rw [place_and_mask (width := 8) (lo := 0) (by decide)]
    rfl

theorem getb (a : Nat) : Statement (.getb a) := by
  constructor
  · simp only [fieldOp, encode, extract_or]
    rw [extract_place_apart (width := 6) (lo := 8) (by omega) (by omega)]
    rfl
  · simp only [encode, zeroBits, or_and]
    rw [place_and_mask (width := 6) (lo := 8) (by decide)]
    rfl

theorem puti (wi : Nat) (val : Index) : Statement (.puti wi val) := by
  constructor
  · simp only [fieldOp, encode, extract_or]
    rw [extract_place_apart (width := 5) (lo := 11) (by omega) (by omega)]
    rw [extract_place_apart (width := 11) (lo := 0) (by omega) (by omega)]
    rfl
  · simp only [encode, zeroBits, or_and]
    rw [place_and_mask (width := 5) (lo := 11) (by decide)]
    rw [place_and_mask (width := 11) (lo := 0) (by decide)]
    rfl

theorem geti (wi : Nat) : Statement (.geti wi) := by
  constructor
  · simp only [fieldOp, encode, extract_or]
    rw [extract_place_apart (width := 5) (lo := 11) (by omega) (by omega)]
    rfl
  · simp only [encode, zeroBits, or_and]
    rw [place_and_mask (width := 5) (lo := 11) (by decide)]
    rfl

theorem wipe : Statement .wipe := ⟨rfl, rfl⟩

theorem stat (sel : Nat) : Statement (.stat sel) := by
  constructor
  · simp only [fieldOp, encode, extract_or]
    rw [extract_place_apart (width := 6) (lo := 0) (by omega) (by omega)]
    rfl
  · simp only [encode, zeroBits, or_and]
    rw [place_and_mask (width := 6) (lo := 0) (by decide)]
    rfl

end Sys2Proof.Laws.OpcodeField
end

