-- ==== Sys2Proof/Laws/Step.lean ====
section
/-! SUPPORT. Everything one step can do, said once, and how the host's issue of a command reaches `exec`. -/

namespace Sys2Proof.Machine

variable {s t : State}

/-- If a step answers a next state, the host presented nothing, or `rst`, or a command that ran, or an illegal word. -/
theorem step_cases (h : step s = .next t) :
    s.host = [] ∧ t = s ∨
    (∃ rest, s.host = .rst :: rest ∧ t = { State.reset with host := rest }) ∨
    (∃ w rest i, s.host = .command w :: rest ∧ decode w = .ok i ∧ exec i (s.accept rest) = .next t) ∨
    (∃ w rest e, s.host = .command w :: rest ∧ decode w = .error e ∧
      t = (s.accept rest).errorEntry .illegalCommand) := by
  unfold step at h
  split at h
  · rename_i e; cases h; exact .inl ⟨e, rfl⟩
  · rename_i rest e; cases h; exact .inr (.inl ⟨rest, e, rfl⟩)
  · rename_i w rest e
    unfold runCommand at h
    split at h
    · rename_i i d; exact .inr (.inr (.inl ⟨w, rest, i, e, d, h⟩))
    · rename_i x d; cases h; exact .inr (.inr (.inr ⟨w, rest, x, e, d, rfl⟩))

/-- Presenting a command and accepting it leaves the host's other moves. -/
theorem accept_present (s : State) (w : Word) (rest : List HostMove) :
    (s.present w).accept rest = s.accept rest := rfl

/-- Issuing a command that its word decodes to runs its meaning. -/
theorem issue_eq {i : Instr} (h : decode (encode i) = .ok i) (s : State) : issue i s = exec i (s.accept s.host) := by
  show runCommand (encode i) ((s.present (encode i)).accept s.host) = _
  rw [accept_present, runCommand, h]

/-- A flow is its first command and then, if that answered `OK`, the rest. -/
theorem runFlow_cons {i : Instr} {is : List Instr} (h : issue i s = .next t) :
    runFlow (i :: is) s = if t.answeredOk then runFlow is t else .next t := by
  rw [runFlow, h]

/-- A command that answers `OK` hands the rest of the flow on. -/
theorem runFlow_cons_ok {i : Instr} {is : List Instr} (h : issue i s = .next t) (ok : t.answeredOk = true) :
    runFlow (i :: is) s = runFlow is t := by
  rw [runFlow_cons h, if_pos ok]

/-- A flow in two parts whose first ends `OK`. -/
theorem runFlow_append {is js : List Instr} (h : runFlow is s = .next t)
    (ok : t.answeredOk = true) : runFlow (is ++ js) s = runFlow js t := by
  induction is generalizing s with
  | nil => cases h; rfl
  | cons i is ih =>
    rw [runFlow] at h
    rw [List.cons_append, runFlow]
    cases e : issue i s with
    | next u =>
      rw [e] at h
      by_cases c : u.answeredOk = true
      · simp only [c, if_true] at h ⊢
        exact ih h
      · simp only [c] at h ⊢
        cases h
        exact absurd ok c
    | fault r => rw [e] at h; cases h
    | refused r => rw [e] at h; cases h

end Sys2Proof.Machine
end

