-- ==== Sys2Proof/Tests/Slice0.lean ====
section
/-! SUPPORT. Tests of one step each, with expected values from 95_test_vectors.md and the encodings of
30_encoding.md, and for every statement that has hypotheses a state and operands that meet them (witness_…). -/

namespace Sys2Proof.Tests

open Sys2Proof Sys2Proof.Machine

/-! ### Helpers -/

/-- The state an outcome goes on in. -/
def after : Host.Outcome State Fault Refusal → Option State
  | .next t => some t
  | .fault _ => none
  | .refused _ => none

/-- The state after the command word `w`. -/
def run (w : Word) (s : State) : Option State := after (step (s.present w))

/-- The response to the command word `w`. -/
def answer (w : Word) (s : State) : Option Response := (run w s).bind State.rsp

/-- A buffer that holds these bytes from address 0 on. -/
def bytes (bs : List Byte) : Memory := bs.zipIdx.foldl (fun m p => m.write p.2 p.1) []

/-- The first `n` bytes of the buffer. -/
def firstBytes (n : Nat) (s : State) : List Byte := (List.range n).map s.buf.read

/-- The reset state with a buffer of these bytes. -/
def holding (bs : List Byte) : State := { State.reset with buf := bytes bs, len := BitVec.ofNat 6 bs.length }

/-- An index file that starts with these words. -/
def words (vs : List Index) : IndexFile := vs.zipIdx.foldl (fun x p => idxPut x p.2 p.1) idxZeroed

/-- The encoder configured for `4*c` bytes, the buffer holding `bs`. -/
def loading (c : Nat) (bs : List Byte) : State :=
  { State.reset with buf := bytes bs, cs := BitVec.ofNat 4 c, ms := BitVec.ofNat 5 (3 * c), len := BitVec.ofNat 6 (4 * c),
                     mode := .encLoad }

/-- The encoder after its checksum byte, the buffer holding `bs`. -/
def ready (c : Nat) (bs : List Byte) : State :=
  { loading c bs with len := BitVec.ofNat 6 (4 * c + 1), mode := .encReady }

/-- The decoder configured for `3*c` words, the buffer holding `bs`. -/
def decoding (c : Nat) (bs : List Byte) : State := { ready c bs with mode := .dec }

/-- A digest whose first byte is `b`. -/
def digest (b : Byte) : Config.Digest := (Vector.replicate 32 0x55#8).set 0 b

/-! ### Ill-formed terms are refused, one for each check (30_encoding.md R93 to R96) -/

theorem test_illformed_rd11 : ¬WellFormed (.rd11 512) := by decide
theorem test_illformed_wr11 : ¬WellFormed (.wr11 1 512) := by decide
theorem test_illformed_cfge : ¬WellFormed (.cfge 64) := by decide
theorem test_illformed_cfgd : ¬WellFormed (.cfgd 64) := by decide
theorem test_illformed_setlen : ¬WellFormed (.setlen 64) := by decide
theorem test_illformed_putb : ¬WellFormed (.putb 64 0) := by decide
theorem test_illformed_getb : ¬WellFormed (.getb 64) := by decide
theorem test_illformed_puti : ¬WellFormed (.puti 32 0) := by decide
theorem test_illformed_geti : ¬WellFormed (.geti 32) := by decide
theorem test_illformed_stat : ¬WellFormed (.stat 64) := by decide

/-! ### Words written out field by field from the formats (30_encoding.md R92 to R96, R103) -/

theorem test_decode_rd11 : decode (1#4 ++ 0#8 ++ 0#11 ++ 0b101010011#9) = .ok (.rd11 0x153) := by decide
theorem test_decode_wr11 : decode (2#4 ++ 0#8 ++ 0b10000000011#11 ++ 0b011111101#9) = .ok (.wr11 0x403 253) := by decide
theorem test_decode_csapp : decode (3#4 ++ 0#28) = .ok .csapp := by decide
theorem test_decode_csvfy : decode (4#4 ++ 0#28) = .ok .csvfy := by decide
theorem test_decode_cfge : decode (5#4 ++ 0#22 ++ 0b010100#6) = .ok (.cfge 20) := by decide
theorem test_decode_unpk : decode (6#4 ++ 0#28) = .ok .unpk := by decide
theorem test_decode_cfgd : decode (7#4 ++ 0#22 ++ 0b001111#6) = .ok (.cfgd 15) := by decide
theorem test_decode_pack : decode (8#4 ++ 0#28) = .ok .pack := by decide
theorem test_decode_setlen : decode (9#4 ++ 0#22 ++ 0b100001#6) = .ok (.setlen 33) := by decide
theorem test_decode_putb : decode (10#4 ++ 0#14 ++ 0b100000#6 ++ 0b10101011#8) = .ok (.putb 32 0xAB) := by decide
theorem test_decode_getb : decode (11#4 ++ 0#14 ++ 0b010001#6 ++ 0#8) = .ok (.getb 17) := by decide
theorem test_decode_puti : decode (12#4 ++ 0#12 ++ 0b10111#5 ++ 0b11111111110#11) = .ok (.puti 23 0x7FE) := by decide
theorem test_decode_geti : decode (13#4 ++ 0#12 ++ 0b01011#5 ++ 0#11) = .ok (.geti 11) := by decide
theorem test_decode_wipe : decode (14#4 ++ 0#28) = .ok .wipe := by decide
theorem test_decode_stat : decode (15#4 ++ 0#22 ++ 0b000001#6) = .ok (.stat 1) := by decide
/-- 95_test_vectors.md X1. -/
theorem test_decode_illegal :
    ([0x00000000, 0x00000001, 0x0FFFFFFF, 0x10000200, 0x20100000, 0x30000001, 0x50000040, 0xB0000001, 0xD0000001, 0xA0004000,
      0xC0010000].all fun w => (decode w).toOption = none) = true := by decide
/-- 95_test_vectors.md, the encodings of programs P1 and P4. -/
theorem test_encode : encode (.wr11 0x2AA 11) = 0x2005540B ∧ encode (.puti 11 257) = 0xC0005901 ∧
    encode (.putb 15 0x80) = 0xA0000F80 := by decide
theorem test_decodeTableWord : decodeTableWord 32 0xD0005800 = some (.geti 11) ∧ decodeTableWord 32 0 = none := by decide

/-! ### One step of each command (95_test_vectors.md) -/

/-- B1, rows 7 and 21 (the guard). -/
theorem test_rd11 : answer 0x10000007 (holding [0xA5, 0x3C, 0xF0, 0x0F]) = some ⟨.ok, 0x4F3⟩ ∧
    answer 0x10000015 (holding [0xA5, 0x3C, 0xF0, 0x0F]) = some ⟨.ok, 0x00F⟩ := by decide
/-- B2, B3. -/
theorem test_rd11_bounds : answer 0x10000006 (holding [0xFF, 0xFF]) = some ⟨.badOffset, 0⟩ ∧
    answer 0x100000FD { State.reset with len := 33 } = some ⟨.ok, 0⟩ := by decide
/-- B5, row 7. -/
theorem test_wr11 : (run 0x200AAA07 (holding [0, 0, 0])).map (firstBytes 3) = some [0x01, 0x55, 0x40] := by decide
/-- B6: the old bits stay. -/
theorem test_wr11_or : (run 0x20080004 (holding [0x81, 0x81, 0x81])).map (firstBytes 3) = some [0x89, 0x81, 0x81] := by decide
/-- P1 at `CSAPP`, for a digest that begins 4E. -/
theorem test_csapp : (after (csappEffect (digest 0x4E) (loading 4 (List.replicate 16 0x80)))).map
      (fun t => (t.rsp, firstBytes 18 t, t.status)) =
    some (some ⟨.ok, 0x4E⟩, List.replicate 16 0x80 ++ [0x4E, 0x00], 0x00231120) := by decide
/-- K4: the message is the entropy and nothing else. -/
theorem test_csapp_message : (loading 5 (List.replicate 25 0x7F)).message = List.replicate 20 0x7F := by decide
/-- P2 at `CSVFY`, for a digest that begins 4E. -/
theorem test_csvfy : (after (csvfyEffect (digest 0x4E) (decoding 4 (List.replicate 16 0x80 ++ [0x40])))).map
      (fun t => (t.rsp, t.buf, t.status)) = some (some ⟨.ok, 0x404E⟩, [], 0x002311C0) := by decide
/-- P3 at `CSVFY`, for a digest that begins 3A. -/
theorem test_csvfy_mismatch : (after (csvfyEffect (digest 0x3A) (decoding 4 [0x80, 0, 0, 0, 0, 0, 0, 0, 0, 0, 0, 0, 0, 0, 0x02, 0x10, 0x10]))).map
      (fun t => (t.rsp, t.buf, t.status)) = some (some ⟨.invalidChecksum, 0x103A⟩, [], 0x00231185) := by decide
/-- Y2. -/
theorem test_cfge : (run 0x50000014 State.reset).map (fun t => (t.rsp, t.status)) =
    some (some ⟨.ok, 15⟩, 0x002BD410) := by decide
/-- S2. -/
theorem test_cfge_errors : answer 0x5000000F State.reset = some ⟨.entropyTooLow, 0⟩ ∧
    answer 0x50000021 State.reset = some ⟨.entropyTooHigh, 0⟩ ∧
    answer 0x50000012 State.reset = some ⟨.entropyNotAligned, 0⟩ := by decide
/-- P1 at `UNPK`; the words from 12 on are cleared. -/
theorem test_unpk : (run 0x60000000 { ready 4 (List.replicate 16 0x80 ++ [0x4E]) with idx := Vector.replicate 24 7 }).map
      (fun t => (t.rsp, t.idx.toList, t.buf)) =
    some (some ⟨.ok, 12⟩, [1028, 32, 257, 8, 64, 514, 16, 128, 1028, 32, 257, 4] ++ List.replicate 12 0, []) := by decide +kernel
/-- E4. -/
theorem test_unpk_sequence : answer 0x60000000 (loading 4 []) = some ⟨.badSequence, 0⟩ := by decide
/-- Y2. -/
theorem test_cfgd : (run 0x70000018 (holding [1, 2, 3])).map (fun t => (t.rsp, t.buf, t.status)) =
    some (some ⟨.ok, 33⟩, [], 0x00462130) := by decide
/-- D1, rows 27 and 13. -/
theorem test_cfgd_refused : answer 0x7000001B State.reset = some ⟨.invalidWordCount, 0⟩ ∧
    answer 0x7000000D State.reset = some ⟨.invalidWordCount, 0⟩ := by decide
/-- D2, the row 1, 2, ..., 15. -/
theorem test_pack : (run 0x80000000 { decoding 5 [] with idx := words [1, 2, 3, 4, 5, 6, 7, 8, 9, 10, 11, 12, 13, 14, 15] }).map
      (firstBytes 21) =
    some [0x00, 0x20, 0x08, 0x01, 0x80, 0x40, 0x0A, 0x01, 0x80, 0x38, 0x08, 0x01, 0x20, 0x28, 0x05, 0x80, 0xC0, 0x1A, 0x03,
      0x80, 0x78] := by decide +kernel
/-- D3. -/
theorem test_pack_or : (run 0x80000000 { decoding 4 [0xAA, 0xA0] with idx := words [0x2AA] }).map (firstBytes 3) =
    some [0xFF, 0xE0, 0x00] := by decide
/-- A2, from mode `ENC_LOAD`. -/
theorem test_setlen : (run 0x90000021 (loading 4 [9])).map (fun t => (t.rsp, t.len, t.mode, t.buf)) =
    some (some ⟨.ok, 0⟩, 33, .idle, [(0, 9)]) := by decide
theorem test_setlen_refused : (run 0x90000022 (loading 4 [])).map (fun t => (t.rsp, t.len, t.mode)) =
    some (some ⟨.badAddress, 0⟩, 16, .encLoad) := by decide
/-- A5. -/
theorem test_putb : (run 0xA000000F (holding [0xFF, 0x01])).map (firstBytes 2) = some [0x0F, 0x01] := by decide
/-- A1. -/
theorem test_putb_refused : (run 0xA0000001 State.reset).map (fun t => (t.rsp, t.buf)) = some (some ⟨.badAddress, 0⟩, []) := by
  decide
/-- A2. -/
theorem test_getb : answer 0xB0002000 { State.reset with buf := [(32, 0xAB)], len := 33 } = some ⟨.ok, 0xAB⟩ := by decide
/-- A3. -/
theorem test_getb_hidden : answer 0xB0000300 { State.reset with buf := [(3, 0x77)], len := 2 } = some ⟨.badAddress, 0⟩ := by
  decide
/-- A4. -/
theorem test_puti : (run 0xC000BFFF State.reset).map (fun t => (t.rsp, idxGet t.idx 23, idxGet t.idx 22)) =
    some (some ⟨.ok, 0⟩, 2047, 0) := by decide
theorem test_puti_refused : answer 0xC000C000 State.reset = some ⟨.badAddress, 0⟩ := by decide
theorem test_geti : answer 0xD000B800 { State.reset with idx := idxPut idxZeroed 23 0x7FF } = some ⟨.ok, 0x7FF⟩ := by decide
theorem test_geti_refused : answer 0xD000F800 State.reset = some ⟨.badAddress, 0⟩ := by decide
/-- Y3. -/
theorem test_wipe : (run 0xE0000000 { decoding 4 [1] with err := .badOffset, vfd := true, csb := 3, idx := words [5] }).map
    (fun t => (t.rsp, ({ t with rsp := none } : State))) = some (some ⟨.ok, 0⟩, State.reset) := by decide
theorem test_wipe_illegal : (run 0xE0000001 (holding [1])).map (fun t => (t.rsp, t.buf)) =
    some (some ⟨.illegalCommand, 0⟩, [(0, 1)]) := by decide
/-- P3 at its two `STAT`s. -/
theorem test_stat : answer 0xF0000000 { ready 4 [] with mode := .idle, vfd := true, err := .invalidChecksum } =
      some ⟨.ok, 0x00231185⟩ ∧
    answer 0xF0000001 { State.reset with obs := 0x10, csb := 0x3A } = some ⟨.ok, 0x103A⟩ := by decide
/-- Y1. -/
theorem test_stat_refused : (run 0xF0000002 State.reset).map (fun t => (t.rsp, t.status)) =
    some (some ⟨.badAddress, 0⟩, 0x0000000A) := by decide
/-- K2. -/
theorem test_compare : checksumAgrees 4 0x4E 0x4F = true ∧ checksumAgrees 4 0x4E 0x50 = false ∧
    checksumAgrees 5 0x4E 0x48 = true ∧ checksumAgrees 5 0x4E 0x40 = false ∧ checksumAgrees 8 0x66 0x67 = false := by decide
/-- X3. -/
theorem test_error_sticks : (run 0x50000021 { State.reset with err := .entropyTooLow }).map (fun t => (t.rsp, t.err)) =
    some (some ⟨.entropyTooHigh, 0⟩, .entropyTooLow) := by decide
/-- X2. -/
theorem test_decode_first : answer 0x30000001 State.reset = some ⟨.illegalCommand, 0⟩ := by decide
/-- 70_reset_and_hazards.md R270, R271. -/
theorem test_rst : after (step { decoding 4 [1] with host := [.rst], err := .badOffset }) = some State.reset := by decide
/-- 10_state.md R41: with nothing presented nothing changes. -/
theorem test_wait : after (step (holding [1])) = some (holding [1]) := by decide
theorem test_withFetchWord : (after (step (State.reset.withFetchWord 32 0x90000003))).map State.len = some 3 := by decide
/-- 30_encoding.md R100. -/
theorem test_parse : parseLine "WR11 0x555, 7 ; or" = some (.wr11 0x555 7) ∧ parseLine "CSAPP" = some .csapp ∧
    parseLine "CFGE 64" = none ∧ asmText (.puti 11 4) = "PUTI 11, 4" := by decide
/-- 10_state.md R40: byte `i` of a message in bits `255-8i : 248-8i`, absent bytes 0. -/
theorem test_busOf : (busOf [0x12, 0x34]).extractLsb' 240 16 = 0x1234 ∧ (busOf [0x12, 0x34]).extractLsb' 0 240 = 0 := by decide
/-- 30_encoding.md R101. -/
theorem test_flows : encodeFlow [1, 2] = [.cfge 2, .putb 0 1, .putb 1 2, .csapp, .unpk] ∧
    validateFlow [5] = [.cfgd 1, .puti 0 5, .pack, .csvfy] := by decide

/-! ### Witnesses: states and operands that meet the hypotheses of the statements -/

theorem witness_DecodeOfEncode : WellFormed (.rd11 511) ∧ WellFormed (.wr11 0x7FF 511) ∧ WellFormed (.cfge 63) ∧
    WellFormed (.cfgd 63) ∧ WellFormed (.setlen 63) ∧ WellFormed (.putb 63 0xFF) ∧ WellFormed (.getb 63) ∧
    WellFormed (.puti 31 0x7FF) ∧ WellFormed (.geti 31) ∧ WellFormed (.stat 63) ∧ WellFormed .csapp := by decide
theorem witness_EncodeOfDecode : decode 0x200AAA07 = .ok (.wr11 0x555 7) := by decide
/-- A word that matches a row, and one that matches none. -/
theorem witness_DecodeFollowsTheTable : (∃ r ∈ opcodeTable, 0x50000010#32 &&& r.mask = r.pattern) ∧
    ∀ r ∈ opcodeTable, 0x00000000#32 &&& r.mask ≠ r.pattern := by decide
theorem witness_IllegalWordsEndInIllegalCommand : decode 0 = .error .reservedOpcode ∧
    decode 0x30000001 = .error .mustBeZeroBit ∧ (State.reset.present 0).host = .command 0 :: [] := by decide
theorem witness_StepRunsTheDecodedCommand : (State.reset.present 0x5000000F).host = .command 0x5000000F :: [] ∧
    decode 0x5000000F = .ok (.cfge 15) := by decide
theorem witness_WaitingChangesNothing : State.reset.host = [] := rfl
theorem witness_TheResetState : ({ decoding 4 [1] with host := [.rst] } : State).host = .rst :: [] ∧
    ((loading 8 [2]).present 0xE0000000).host = .command 0xE0000000 :: [] := ⟨rfl, rfl⟩
theorem witness_RstAndWipeAreEquivalent : ({ decoding 4 [1] with host := [.rst] } : State).host = .rst :: [] ∧
    ((loading 8 [2]).present 0xE0000000).host = .command 0xE0000000 :: [] := ⟨rfl, rfl⟩
theorem witness_OneResponsePerCommand : ((loading 8 [2]).present 0).Inv ∧
    ((loading 8 [2]).present 0).host = .command 0 :: [] := by decide
theorem witness_LaterMovesDoNotMatter :
    ∃ t, step { holding [7] with host := .command 0xB0000000 :: [] } = .next t ∧ t.rsp = some ⟨.ok, 7⟩ := ⟨_, rfl, by decide⟩
theorem witness_EveryStepKeepsTheInvariants :
    (State.reset.present 0x7000000C).Inv ∧ ∃ t, step (State.reset.present 0x7000000C) = .next t ∧ t.mode = .dec :=
  ⟨by decide, _, rfl, rfl⟩
theorem witness_EveryRunGoesOn : (loading 8 [2]).Inv ∧ (ready 4 [2]).Inv ∧ (decoding 8 [2]).Inv :=
  ⟨by decide, by decide, by decide⟩
theorem witness_ReadFieldIsTheSumOfItsBits : 0 + 11 ≤ 8 * 2 ∧ 253 + 11 ≤ 8 * 33 := by decide
/-- Offset 125 in 17 bytes: its third byte, 17, lies at `LEN`. -/
theorem witness_GuardedByteNeverReachesAResult :
    Memory.wf (bytes [1, 2]) ∧ 17 ≤ 33 ∧ 125 + 11 ≤ 8 * 17 ∧ 17 ≤ 125 / 8 + 2 ∧ 17 ≤ 17 := by decide
/-- Offset 5, whose field stops in its second byte; bits 4 and 16 beside it; and a byte that changes. -/
theorem witness_WriteFieldBitByBit : Memory.wf (bytes [1, 2]) ∧ 5 + 11 ≤ 8 * 3 ∧ 4 < 5 ∧ 5 + 10 < 16 ∧ 5 % 8 ≤ 5 ∧
    (Memory.write11 (bytes [1, 2]) 3 0x7FF 5).read 0 ≠ (bytes [1, 2]).read 0 := by decide
/-- Offsets 0 and 11 apart, 0 and 10 overlapping; a field that holds 0. -/
theorem witness_FieldLaws : Memory.wf (bytes [0, 0, 3]) ∧ 3 ≤ 33 ∧ 0 + 11 ≤ 8 * 3 ∧ Memory.read11 (bytes [0, 0, 3]) 3 0 = 0 ∧
    11 + 11 ≤ 8 * 3 ∧ 0 + 10 < 11 ∧ 10 + 11 ≤ 8 * 3 ∧ 10 ≤ 0 + 10 := by decide
theorem witness_OrderInsideALoopIsFree : Memory.wf (bytes [1, 2]) ∧ 3 ≤ 33 ∧ 2 ≤ 24 ∧ 11 * 2 ≤ 8 * 3 ∧
    [1, 0].Perm (List.range 2) := by decide
/-- The premises on the word, in every statement about one command: a word of each opcode with its operands at their
greatest, and one with a must-be-zero bit, presented at reset. -/
theorem witness_commandWords :
    ([(1, 0x100001FF, 0x10000200), (2, 0x200FFFFF, 0x20100000), (3, 0x30000000, 0x30000001), (4, 0x40000000, 0x48000000),
      (5, 0x5000003F, 0x50000040), (6, 0x60000000, 0x60000001), (7, 0x7000003F, 0x70000040), (8, 0x80000000, 0x88000000),
      (9, 0x9000003F, 0x90000040), (10, 0xA0003FFF, 0xA0004000), (11, 0xB0003F00, 0xB0000001), (12, 0xC000FFFF, 0xC0010000),
      (13, 0xD000F800, 0xD0000001), (14, 0xE0000000, 0xE0000001), (15, 0xF000003F, 0xF0000040)].all
      fun p : BitVec 4 × Word × Word =>
        (p.2.1.extractLsb' 28 4 = p.1 ∧ p.2.1 &&& mustBeZero p.1 = 0 ∧ p.2.2.extractLsb' 28 4 = p.1 ∧
          p.2.2 &&& mustBeZero p.1 ≠ 0 : Bool)) = true ∧
    ∀ w, (State.reset.present w).host = .command w :: [] := ⟨by decide, fun _ => rfl⟩

/-- With 17 bytes offset 125 is the last in bounds; the word of offset 511, and one with a must-be-zero bit. -/
theorem witness_Rd11ReadsAField : (ready 4 [1]).len.toNat ≤ 33 ∧ 8 * (ready 4 [1]).len.toNat < 126 + 11 ∧
    125 + 11 ≤ 8 * (ready 4 [1]).len.toNat ∧ (State.reset.present 0x100001FF).host = .command 0x100001FF :: [] ∧
    0x100001FF#32 &&& 0x0FFFFE00 = 0 ∧ 0x10000200#32 &&& 0x0FFFFE00 ≠ 0 := by decide
theorem witness_Wr11OrsAField : (ready 4 [1]).len.toNat ≤ 33 ∧ (ready 4 [1]).buf.wf ∧
    8 * (ready 4 [1]).len.toNat < 126 + 11 ∧ 125 + 11 ≤ 8 * (ready 4 [1]).len.toNat ∧
    0x200FFFFF#32 &&& 0x0FF00000 = 0 ∧ 0x20100000#32 &&& 0x0FF00000 ≠ 0 := by decide
theorem witness_ChecksumMask : 4 ≤ (4#4).toNat ∧ (8#4).toNat ≤ 8 ∧ (decoding 4 [1]).Inv ∧ (decoding 4 [1]).mode = .dec := by decide
theorem witness_CompareUsesTheTopBitsOnly : 4 ≤ (4#4).toNat ∧ (8#4).toNat ≤ 8 := by decide
theorem witness_CsappAppendsTheChecksumByte : State.reset.buf.wf ∧ State.reset.mode ≠ .encLoad ∧ (loading 8 [1]).buf.wf ∧
    (loading 8 [1]).mode = .encLoad ∧ 4 * (loading 8 [1]).cs.toNat ≤ 32 ∧ 0x30000000#32 &&& 0x0FFFFFFF = 0 ∧
    0x30000001#32 &&& 0x0FFFFFFF ≠ 0 := by decide
theorem witness_CsvfyComparesAndZeroes : State.reset.mode ≠ .dec ∧ (decoding 4 [1]).mode = .dec ∧
    4 ≤ (decoding 4 [1]).cs.toNat ∧ (decoding 8 [1]).mode = .dec ∧ (decoding 8 [1]).cs.toNat ≤ 8 := by decide

/-- Sixteen zero bytes and then the byte `x`, in mode `DEC`. -/
def zerosAnd (x : Byte) : State := { decoding 4 [] with buf := Memory.write [] 16 x }

/-- Its message is the sixteen zeros, and its byte 16 is `x`. -/
theorem zerosAnd_eq (x : Byte) : (zerosAnd x).message = List.replicate 16 0 ∧ (zerosAnd x).buf.read (zerosAnd x).eb = x := by
  have r : ∀ a, (zerosAnd x).buf.read a = if a = 16 then x else 0 := fun a =>
    Memory.read_write Memory.zeroed_wf 16 a x
  refine ⟨?_, r 16⟩
  show (List.range 16).map (zerosAnd x).buf.read = _
  rw [show (zerosAnd x).buf.read = fun a => if a = 16 then x else 0 from funext r]
  rfl

/-- `CSVFY` in that state. -/
theorem zerosAnd_csvfy (x : Byte) :
    exec .csvfy (zerosAnd x) = csvfyEffect (Config.sha256 (List.replicate 16 0)) (zerosAnd x) := by
  rw [← (zerosAnd_eq x).1]; rfl

/-- Both verdicts come about, whatever Sha256 is: the first digest byte itself agrees, and with its top bit flipped it does
not. -/
theorem witness_CsvfyComparesAndZeroes_verdicts :
    (∃ t, exec .csvfy (zerosAnd (Config.sha256 (List.replicate 16 0))[0]) = .next t ∧ t.csok = true) ∧
    ∃ t, exec .csvfy (zerosAnd ((Config.sha256 (List.replicate 16 0))[0] ^^^ 0x80)) = .next t ∧ t.csok = false ∧
      t.rsp.map Response.st = some .invalidChecksum := by
  have agrees : ∀ x : Byte, checksumAgrees 4 x x = true := by decide
  have differs : ∀ x : Byte, checksumAgrees 4 x (x ^^^ 0x80) = false := by decide
  constructor
  · rw [zerosAnd_csvfy, csvfyEffect_eq, (zerosAnd_eq _).2]
    refine ⟨_, rfl, ?_⟩
    rw [if_pos (show checksumAgrees (zerosAnd _).cs _ _ = true from agrees _)]
    show checksumAgrees 4 _ ((zerosAnd _).buf.read (zerosAnd _).eb) = true
    rw [(zerosAnd_eq _).2]; exact agrees _
  · rw [zerosAnd_csvfy, csvfyEffect_eq, (zerosAnd_eq _).2]
    refine ⟨_, rfl, ?_⟩
    rw [if_neg (show ¬checksumAgrees (zerosAnd _).cs _ _ = true from by
      rw [show (zerosAnd _).cs = 4 from rfl, differs]; decide)]
    refine ⟨?_, rfl⟩
    show checksumAgrees 4 _ ((zerosAnd _).buf.read (zerosAnd _).eb) = false
    rw [(zerosAnd_eq _).2]; exact differs _

theorem witness_HashRequestIsTheEntropy : ((loading 4 [1]).present 0x30000000).Inv ∧
    (∃ t x, step ((loading 4 [1]).present 0x30000000) = .next t ∧ t.hash = some x) ∧
    ((decoding 8 [1]).present 0x40000000).Inv ∧
    ∃ t x, step ((decoding 8 [1]).present 0x40000000) = .next t ∧ t.hash = some x := by
  refine ⟨by decide, ⟨_, _, rfl, rfl⟩, by decide, ?_⟩
  have e : step ((decoding 8 [1]).present 0x40000000) =
      csvfyEffect (Config.sha256 (decoding 8 [1]).message) ((decoding 8 [1]).accept []) := rfl
  rw [e, csvfyEffect_eq]
  split <;> exact ⟨_, _, rfl, rfl⟩
/-- 15, 33 and 17 bytes are each an error of its own; 16 and 32 are accepted. -/
theorem witness_CfgeConfiguresTheEncoder : 8 * 15 < 128 ∧ 256 < 8 * 33 ∧ (128 ≤ 8 * 17 ∧ 8 * 17 ≤ 256 ∧ 8 * 17 % 32 ≠ 0) ∧
    16 ∈ legalEntropyBytes ∧ 32 ∈ legalEntropyBytes ∧ 0x5000003F#32 &&& 0x0FFFFFC0 = 0 ∧ 0x50000040#32 &&& 0x0FFFFFC0 ≠ 0 := by
  decide
theorem witness_UnpkExtractsTheWords : State.reset.mode ≠ .encReady ∧ (ready 8 [1]).mode = .encReady ∧
    (ready 8 [1]).len.toNat ≤ 33 ∧ (ready 8 [1]).ms.toNat ≤ 24 ∧ 11 * (ready 8 [1]).ms.toNat ≤ 8 * (ready 8 [1]).len.toNat := by
  decide
theorem witness_WordsDependOnTheEntropyAlone : (loading 4 [1]).Inv ∧ (loading 4 [1]).mode = .encLoad ∧
    ∃ t t', csappEffect (digest 0) (loading 4 [1]) = .next t ∧ csappEffect (digest 0xFF) (loading 4 [1]) = .next t' :=
  ⟨by decide, rfl, _, _, rfl, rfl⟩
theorem witness_CfgdConfiguresTheDecoder : 0 ∉ legalWordCounts ∧ 11 ∉ legalWordCounts ∧ 63 ∉ legalWordCounts ∧
    12 ∈ legalWordCounts ∧ 24 ∈ legalWordCounts := by decide
theorem witness_PackOrsTheWords : State.reset.buf.wf ∧ State.reset.mode ≠ .dec ∧ (decoding 8 [1]).buf.wf ∧
    (decoding 8 [1]).mode = .dec ∧ (decoding 8 [1]).len.toNat ≤ 33 ∧ (decoding 8 [1]).ms.toNat ≤ 24 ∧
    11 * (decoding 8 [1]).ms.toNat ≤ 8 * (decoding 8 [1]).len.toNat := by decide
theorem witness_SetlenSetsTheLength : 33 < 34 ∧ 33 ≤ 33 ∧ 0x9000003F#32 &&& 0x0FFFFFC0 = 0 := by decide
theorem witness_PutbStoresAByte : (ready 4 [1]).len.toNat ≤ 33 ∧ (ready 4 [1]).buf.wf ∧ (ready 4 [1]).len.toNat ≤ 17 ∧
    16 < (ready 4 [1]).len.toNat ∧ 0xA0003FFF#32 &&& 0x0FFFC000 = 0 ∧ 0xA0004000#32 &&& 0x0FFFC000 ≠ 0 := by decide
theorem witness_GetbReadsAByte : (ready 4 [1]).len.toNat ≤ 33 ∧ (ready 4 [1]).len.toNat ≤ 17 ∧ 16 < (ready 4 [1]).len.toNat ∧
    0xB0003F00#32 &&& 0x0FFFC0FF = 0 ∧ 0xB0000001#32 &&& 0x0FFFC0FF ≠ 0 := by decide
theorem witness_PutiStoresAnIndex : 23 < 24 ∧ 23 ≤ 23 ∧ 0xC000FFFF#32 &&& 0x0FFF0000 = 0 ∧
    0xC0010000#32 &&& 0x0FFF0000 ≠ 0 := by decide
theorem witness_GetiReadsAnIndex : 23 < 24 ∧ 23 ≤ 23 ∧ 0xD000F800#32 &&& 0x0FFF07FF = 0 ∧
    0xD0000001#32 &&& 0x0FFF07FF ≠ 0 := by decide
theorem witness_WipeZeroesEverything : 0xE0000000#32 &&& 0x0FFFFFFF = 0 ∧ 0xE0000001#32 &&& 0x0FFFFFFF ≠ 0 := by decide
theorem witness_StatReturnsAStatusWord : 1 < 2 ∧ 0xF000003F#32 &&& 0x0FFFFFC0 = 0 ∧ 0xF0000040#32 &&& 0x0FFFFFC0 ≠ 0 := by decide
theorem witness_ErrorsChangeNothingElse :
    (∃ t r, step (State.reset.present 0xB0000000) = .next t ∧ t.rsp = some r ∧ r.st ≠ .ok ∧ r.st ≠ .invalidChecksum) ∧
    ∃ s t r, s.host = .command 0x40000000 :: [] ∧ step s = .next t ∧ t.rsp = some r ∧ r.st = .invalidChecksum := by
  refine ⟨⟨_, _, rfl, rfl, by decide, by decide⟩, (zerosAnd ((Config.sha256 (List.replicate 16 0))[0] ^^^ 0x80)).present
    0x40000000, ?_⟩
  have e := witness_CsvfyComparesAndZeroes_verdicts.2
  obtain ⟨t, h, -, hr⟩ := e
  refine ⟨t, ⟨.invalidChecksum, (t.rsp.map Response.data).getD 0⟩, rfl, h, ?_, rfl⟩
  cases hx : t.rsp with
  | none => rw [hx] at hr; cases hr
  | some r => rw [hx] at hr; cases r; simp at hr; subst hr; rfl
theorem witness_FirstErrorSticks :
    (∃ t r, step (State.reset.present 0xB0000000) = .next t ∧ t.rsp = some r) ∧ (0xB0000000 : Word) ≠ 0xE0000000 ∧
    (∃ t, step ((decoding 4 [1]).present 0xE0000000) = .next t) ∧ (Instr.stat 1 ≠ .stat 0 ∧ (decoding 4 [1]).Inv) :=
  ⟨⟨_, _, rfl, rfl⟩, by decide, ⟨_, rfl⟩, by decide⟩
theorem witness_StatusesOfEachCommand :
    ∃ t r, exec (.cfge 33) State.reset = .next t ∧ t.rsp = some r ∧ r.st = .entropyTooHigh ∧ t.rspSt = 2 :=
  ⟨_, _, rfl, rfl, rfl, rfl⟩
theorem witness_BadSequenceIsTheWrongMode : State.reset.Inv ∧ State.reset.mode ≠ .encLoad ∧ (loading 4 [1]).Inv ∧
    (loading 4 [1]).mode = .encLoad ∧ (ready 8 [1]).Inv ∧ (ready 8 [1]).mode = .encReady ∧ (decoding 8 [1]).Inv ∧
    (decoding 8 [1]).mode = .dec :=
  ⟨by decide, by decide, by decide, rfl, by decide, rfl, by decide, rfl⟩
/-- One command that keeps the mode, one that sets it. -/
theorem witness_OtherCommandsIgnoreTheMode :
    (∃ t, exec (.getb 0) (decoding 4 [1]) = .next t ∧ t.mode = .dec) ∧
    ∃ t, exec (.cfgd 24) (loading 4 [1]) = .next t ∧ t.mode = .dec := ⟨⟨_, rfl, rfl⟩, _, rfl, rfl⟩
/-- Each mode entered from another. -/
theorem witness_HowAModeChanges :
    (∃ t, exec (.cfge 16) State.reset = .next t ∧ t.mode ≠ State.reset.mode ∧ t.mode = .encLoad) ∧
    (∃ t, exec .csapp (loading 4 [1]) = .next t ∧ t.mode ≠ (loading 4 [1]).mode ∧ t.mode = .encReady) ∧
    (∃ t, exec (.cfgd 12) State.reset = .next t ∧ t.mode ≠ State.reset.mode ∧ t.mode = .dec) ∧
    ∃ t, exec .unpk (ready 4 [1]) = .next t ∧ t.mode ≠ (ready 4 [1]).mode ∧ t.mode = .idle :=
  ⟨⟨_, rfl, by decide, rfl⟩, ⟨_, rfl, by decide, rfl⟩, ⟨_, rfl, by decide, rfl⟩, _, rfl, by decide, rfl⟩
/-- Each piece of state changed by some command. -/
theorem witness_WritersOfEachRegister :
    (∃ t, exec (.putb 0 9) (holding [1]) = .next t ∧ t.buf ≠ (holding [1]).buf) ∧
    (∃ t, exec (.setlen 3) State.reset = .next t ∧ t.len ≠ State.reset.len) ∧
    (∃ t, exec (.puti 0 9) State.reset = .next t ∧ t.idx ≠ State.reset.idx) ∧
    (∃ t, exec (.cfge 16) State.reset = .next t ∧ t.cs ≠ State.reset.cs) ∧
    (∃ t, exec .wipe { State.reset with csb := 1 } = .next t ∧ t.csb ≠ 1) ∧
    (∃ t, exec .wipe { State.reset with obs := 1 } = .next t ∧ t.obs ≠ 1) ∧
    (∃ t, exec .wipe { State.reset with digest := digest 1 } = .next t ∧ t.digest ≠ digest 1) ∧
    (∃ t, exec (.setlen 3) (loading 4 [1]) = .next t ∧ t.mode ≠ (loading 4 [1]).mode) ∧
    (∃ t, exec (.getb 0) State.reset = .next t ∧ t.err ≠ State.reset.err) ∧
    ∃ t, exec .csapp (loading 4 [1]) = .next t ∧ t.hash ≠ (loading 4 [1]).hash :=
  ⟨⟨_, rfl, by decide⟩, ⟨_, rfl, by decide⟩, ⟨_, rfl, by decide⟩, ⟨_, rfl, by decide⟩, ⟨_, rfl, by decide⟩, ⟨_, rfl, by decide⟩,
    ⟨_, rfl, by decide⟩, ⟨_, rfl, by decide⟩, ⟨_, rfl, by decide⟩, _, rfl, by simp [loading, State.reset]⟩
/-- Bytes at and beyond `LEN` that are not 0, under a store below it and under `CSAPP`. -/
theorem witness_HiddenBytesPersist :
    (({ holding [1, 2] with len := 1 } : State).Inv ∧
      ∃ t, exec (.putb 0 9) { holding [1, 2] with len := 1 } = .next t ∧ t.buf.read 1 = 2) ∧
    ((loading 4 (List.replicate 18 7)).Inv ∧ ∃ t, exec .csapp (loading 4 (List.replicate 18 7)) = .next t) :=
  ⟨⟨by decide, _, rfl, by decide⟩, by decide, _, rfl⟩
theorem witness_HiddenBytesAreNotObserved : (holding [1]).Inv ∧ ({ holding [1, 2] with len := 1 } : State).Inv ∧
    (holding [1]).sameBelowLen { holding [1, 2] with len := 1 } ∧ (holding [1]).buf ≠ bytes [1, 2] := by decide
theorem witness_RepeatingACommand :
    (∃ t, exec (.getb 0) (holding [1]) = .next t ∧ t.rsp.map Response.st = some .ok) ∧
    ((decoding 4 [1]).Inv ∧ (∃ t, exec .pack (decoding 4 [1]) = .next t) ∧ (decoding 4 [1]).buf.bit 7 = true) ∧
    ∃ t, exec .unpk (ready 4 [1]) = .next t ∧ ¬t = (ready 4 [1]).errorEntry .badSequence :=
  ⟨⟨_, rfl, rfl⟩, ⟨by decide, ⟨_, rfl⟩, by decide⟩, _, rfl, by decide⟩
theorem witness_EncodeIsAFunctionOfTheEntropy : (List.replicate 16 0x80#8).length ∈ legalEntropyBytes ∧
    (List.replicate 32 0x80#8).length ∈ legalEntropyBytes ∧ State.reset.Inv ∧ (decoding 8 [1]).Inv := by decide
theorem witness_PackedBufferIsTheConcatenation : (List.replicate 12 1#11).length ∈ legalWordCounts ∧
    (List.replicate 24 1#11).length ∈ legalWordCounts ∧ (ready 8 [1]).Inv := by decide
theorem witness_EncodedWordsValidate : (List.replicate 16 0x80#8).length ∈ legalEntropyBytes ∧ (ready 8 [1]).Inv := by decide
theorem witness_HowAValidationEnds : (List.replicate 63 1#11).length < 64 ∧ (List.replicate 63 1#11).length ∉ legalWordCounts ∧
    (List.replicate 12 1#11).length ∈ legalWordCounts ∧ State.reset.Inv ∧ (decoding 8 [1]).Inv := by decide
theorem witness_AcceptedLastWords : (List.replicate 11 1#11).length + 1 ∈ legalWordCounts ∧
    (List.replicate 23 1#11).length + 1 ∈ legalWordCounts ∧ State.reset.Inv := by decide

end Sys2Proof.Tests
end

section
/-! PROOFS. The arithmetic of a configuration in terms of its number `c` of checksum bits: `EB = 4*c`, `ENT = 32*c`,
`ENT+CS = 33*c`, `MS = 3*c`, and, from 1 to 8 checksum bits, `LENC = 4*c + 1` (00_scope.md R7). Both sides' formulas divide
exactly at these arguments. -/

namespace Sys2Proof.Machine

/-! ### The encoder's formulas at `4*c` bytes (42_encoder.md R161) -/

theorem encEnt_four_mul (c : Nat) : encEnt (4 * c) = 32 * c := by
  unfold encEnt
  omega

theorem encCs_four_mul (c : Nat) : encCs (4 * c) = c := by
  rw [encCs, encEnt_four_mul, Nat.mul_div_cancel_left c (by decide)]

theorem encEnt_add_encCs_four_mul (c : Nat) : encEnt (4 * c) + encCs (4 * c) = 33 * c := by
  rw [encEnt_four_mul, encCs_four_mul]
  omega

theorem encMs_four_mul (c : Nat) : encMs (4 * c) = 3 * c := by
  rw [encMs, encEnt_add_encCs_four_mul]
  omega

/-! ### The decoder's formulas at `3*c` words (43_decoder.md R181) -/

theorem decEntPlusCs_three_mul (c : Nat) : decEntPlusCs (3 * c) = 33 * c := by
  unfold decEntPlusCs
  omega

theorem decEnt_three_mul (c : Nat) : decEnt (3 * c) = 32 * c := by
  rw [decEnt, decEntPlusCs_three_mul]
  omega

theorem decCs_three_mul (c : Nat) : decCs (3 * c) = c := by
  rw [decCs, decEnt_three_mul, Nat.mul_div_cancel_left c (by decide)]

/-- The checksum of 1 to 8 bits takes one byte more than the entropy. -/
theorem decLen_three_mul {c : Nat} (pos : 1 ≤ c) (le : c ≤ 8) : decLen (3 * c) = 4 * c + 1 := by
  rw [decLen, decEntPlusCs_three_mul]
  omega

/-! ### The table of 00_scope.md R7 -/

/-- The row of the table with `c` checksum bits: `EB`, `ENT`, `CS`, `ENT+CS`, `MS`, `LENC`, `MASK`. -/
def configurationRow (c : Nat) : Nat × Nat × Nat × Nat × Nat × Nat × Byte :=
  (4 * c, 32 * c, c, 33 * c, 3 * c, 4 * c + 1, csmask (BitVec.ofNat 4 c))

/-- Settles O30: the table lists the rows of 4 to 8 checksum bits, and each row is what both sides' formulas give. -/
theorem legalConfigurations : Obligations.LegalConfigurations := by
  unfold Obligations.LegalConfigurations
  have table : [(16, 128, 4, 132, 12, 17, 0xF0#8), (20, 160, 5, 165, 15, 21, 0xF8#8), (24, 192, 6, 198, 18, 25, 0xFC#8),
      (28, 224, 7, 231, 21, 29, 0xFE#8), (32, 256, 8, 264, 24, 33, 0xFF#8)] = [4, 5, 6, 7, 8].map configurationRow :=
    rfl
  rw [table]
  intro row hrow
  obtain ⟨c, hc, rfl⟩ := List.mem_map.mp hrow
  have range : ∀ c ∈ [4, 5, 6, 7, 8], 1 ≤ c ∧ c ≤ 8 := by decide
  obtain ⟨pos, le⟩ := range c hc
  have words : 11 * (3 * c) = 33 * c := decEntPlusCs_three_mul c
  exact ⟨encEnt_four_mul c, encCs_four_mul c, encEnt_add_encCs_four_mul c, encMs_four_mul c, words, decEnt_three_mul c,
    decCs_three_mul c, decLen_three_mul pos le, rfl, rfl⟩

end Sys2Proof.Machine
end

section
/-! PROOFS. What every command does, in one form: a command makes its own check and ends by error entry when the check
fails; when it passes and what the command names exists (log 6, log 7), the command has its effect. `exec_next_iff` ties
the three functions below to `exec`; every later statement about all commands is a statement about them. -/

namespace Sys2Proof.Machine

/-! ### The three parts of a command -/

/-- A check: no error when it passes, the error `c` when it fails. -/
def check (passes : Prop) [Decidable passes] (c : Status) : Option Status := if passes then none else some c

@[simp] theorem check_eq_none {p : Prop} [Decidable p] {c : Status} : check p c = none ↔ p := by simp [check]

@[simp] theorem check_eq_some {p : Prop} [Decidable p] {c d : Status} : check p c = some d ↔ ¬p ∧ c = d := by
  simp [check]

/-- The error with which a command ends when its own check fails (60_exceptions.md R230); none when the check passes. -/
def ownError : Instr → State → Option Status
  | .rd11 off, s => check (s.offsetOk off) .badOffset
  | .wr11 _ off, s => check (s.offsetOk off) .badOffset
  | .csapp, s => check (s.mode = .encLoad) .badSequence
  | .csvfy, s => check (s.mode = .dec) .badSequence
  | .cfge n, _ => entropyError n
  | .unpk, s => check (s.mode = .encReady) .badSequence
  | .cfgd ms, _ => check (wordCountOk ms) .invalidWordCount
  | .pack, s => check (s.mode = .dec) .badSequence
  | .setlen n, _ => check (lengthOk n) .badAddress
  | .putb a _, s => check (s.addressOk a) .badAddress
  | .getb a, s => check (s.addressOk a) .badAddress
  | .puti wi _, _ => check (indexOk wi) .badAddress
  | .geti wi, _ => check (indexOk wi) .badAddress
  | .wipe, _ => none
  | .stat sel, _ => check (selectorOk sel) .badAddress

/-- What a command names exists, so that it has its meaning once its check has passed (log 6, log 7). -/
def hasMeaning : Instr → State → Prop
  | .rd11 _, s | .wr11 _ _, s | .putb _ _, s | .getb _, s => s.lenExists
  | .unpk, s | .pack, s => s.lenExists ∧ s.wordsExist
  | .csapp, s => s.appendedByteExists
  | .csvfy, s => csmaskDefined s.cs
  | _, _ => True

/-- The status with which `CSVFY` ends when the engine answers `d` (41_checksum.md R145). -/
def verdict (d : Config.Digest) (s : State) : Status :=
  if checksumAgrees s.cs d[0] (s.buf.read s.eb) then .ok else .invalidChecksum

/-- The state a command leaves when its check has passed. -/
def effect : Instr → State → State
  | .rd11 off, s => { s with rsp := some ⟨.ok, (s.read11 off).setWidth 32⟩ }
  | .wr11 val off, s => { s with buf := s.buf.write11 s.len.toNat val off, rsp := some ⟨.ok, 0⟩ }
  | .csapp, s =>
    { s with
      buf := s.buf.write s.eb (Config.sha256 s.message)[0], len := BitVec.ofNat 6 (s.eb + 1), mode := .encReady
      csb := (Config.sha256 s.message)[0], digest := Vector.replicate 32 0
      hash := some ⟨s.message, Config.sha256 s.message⟩
      rsp := some ⟨.ok, (Config.sha256 s.message)[0].setWidth 32⟩ }
  | .csvfy, s =>
    { (csvfyCheck (Config.sha256 s.message) s).latch (verdict (Config.sha256 s.message) s) with
      rsp := some ⟨verdict (Config.sha256 s.message) s, (csvfyCheck (Config.sha256 s.message) s).aux⟩ }
  | .cfge n, s =>
    { s with cs := BitVec.ofNat 4 (encCs n), ms := BitVec.ofNat 5 (encMs n), len := BitVec.ofNat 6 n, mode := .encLoad
             rsp := some ⟨.ok, (BitVec.ofNat 5 (encMs n)).setWidth 32⟩ }
  | .unpk, s =>
    { s with idx := s.unpacked, buf := Memory.zeroed, mode := .idle, rsp := some ⟨.ok, s.ms.setWidth 32⟩ }
  | .cfgd ms, s =>
    { s with buf := Memory.zeroed, cs := BitVec.ofNat 4 (decCs ms), ms := BitVec.ofNat 5 ms
             len := BitVec.ofNat 6 (decLen ms), mode := .dec
             rsp := some ⟨.ok, (BitVec.ofNat 6 (decLen ms)).setWidth 32⟩ }
  | .pack, s => { s with buf := s.packed, rsp := some ⟨.ok, 0⟩ }
  | .setlen n, s => { s with len := BitVec.ofNat 6 n, mode := .idle, rsp := some ⟨.ok, 0⟩ }
  | .putb a d, s => { s with buf := s.buf.write a d, rsp := some ⟨.ok, 0⟩ }
  | .getb a, s => { s with rsp := some ⟨.ok, (s.buf.read a).setWidth 32⟩ }
  | .puti wi val, s => { s with idx := idxPut s.idx wi val, rsp := some ⟨.ok, 0⟩ }
  | .geti wi, s => { s with rsp := some ⟨.ok, (idxGet s.idx wi).setWidth 32⟩ }
  | .wipe, s => { s.wiped with rsp := some ⟨.ok, 0⟩ }
  | .stat sel, s => { s with rsp := some ⟨.ok, if sel = 0 then s.status else s.aux⟩ }

/-! ### How they make up `exec` -/

variable {i : Instr} {s t : State}

/-- The effect of `CSVFY` is that of the digest its engine answers. -/
theorem csvfyEffect_eq_effect (s : State) :
    csvfyEffect (Config.sha256 s.message) s = .next (effect .csvfy s) := by
  rw [csvfyEffect_eq]
  by_cases agrees : checksumAgrees s.cs (Config.sha256 s.message)[0] (s.buf.read s.eb) = true
  · rw [if_pos agrees]
    simp only [effect, verdict, if_pos agrees, State.latch]
    by_cases clear : s.err = .ok
    · simp [csvfyCheck_eq, clear]
    · simp [csvfyCheck_eq, clear]
  · rw [if_neg agrees]
    simp only [effect, verdict, if_neg agrees]
    rfl

/-- A command whose check fails ends by error entry. -/
theorem exec_of_ownError {c : Status} (h : ownError i s = some c) : exec i s = .next (s.errorEntry c) := by
  cases i with
  | wipe => cases h
  | cfge n =>
    have error : entropyError n = some c := h
    simp only [exec, execCfge, error]
    rfl
  | _ =>
    obtain ⟨fails, rfl⟩ := check_eq_some.mp h
    exact if_pos fails

/-- A command whose check passes, and for which what it names exists, has its effect. -/
theorem exec_of_passed (h : ownError i s = none) (m : hasMeaning i s) : exec i s = .next (effect i s) := by
  cases i with
  | cfge n =>
    have error : entropyError n = none := h
    simp only [exec, execCfge, error]
    rfl
  | wipe => rfl
  | cfgd | setlen | puti | geti => exact if_neg (not_not_intro (check_eq_none.mp h))
  | stat sel =>
    refine (if_neg (not_not_intro (check_eq_none.mp h))).trans ?_
    by_cases zero : sel = 0
    · simp [effect, zero]
    · simp [effect, zero]
  | rd11 | wr11 | putb | getb | csapp =>
    exact (if_neg (not_not_intro (check_eq_none.mp h))).trans (if_neg (not_not_intro m))
  | csvfy =>
    exact ((if_neg (not_not_intro (check_eq_none.mp h))).trans (if_neg (not_not_intro m))).trans
      (csvfyEffect_eq_effect s)
  | unpk | pack =>
    obtain ⟨len, words⟩ := m
    exact (if_neg (not_not_intro (check_eq_none.mp h))).trans
      ((if_neg (not_not_intro len)).trans (if_neg (not_not_intro words)))

/-- A command whose check passes answers a next state only when what it names exists. -/
theorem hasMeaning_of_exec_next (h : exec i s = .next t) (passed : ownError i s = none) : hasMeaning i s := by
  cases i with
  | rd11 => exact ((execRd11_next h).resolve_left fun e => e.1 (check_eq_none.mp passed)).2.1
  | wr11 => exact ((execWr11_next h).resolve_left fun e => e.1 (check_eq_none.mp passed)).2.1
  | putb => exact ((execPutb_next h).resolve_left fun e => e.1 (check_eq_none.mp passed)).2.1
  | getb => exact ((execGetb_next h).resolve_left fun e => e.1 (check_eq_none.mp passed)).2.1
  | csapp => exact ((execCsapp_next h).resolve_left fun e => e.1 (check_eq_none.mp passed)).2.1
  | csvfy => exact ((execCsvfy_next h).resolve_left fun e => e.1 (check_eq_none.mp passed)).2.1
  | unpk =>
    obtain ⟨-, len, words, -⟩ := (execUnpk_next h).resolve_left fun e => e.1 (check_eq_none.mp passed)
    exact ⟨len, words⟩
  | pack =>
    obtain ⟨-, len, words, -⟩ := (execPack_next h).resolve_left fun e => e.1 (check_eq_none.mp passed)
    exact ⟨len, words⟩
  | _ => trivial

/-- Everything a command can do when it answers a next state: error entry with its own error, or its effect. -/
theorem exec_next_iff :
    exec i s = .next t ↔
      (∃ c, ownError i s = some c ∧ t = s.errorEntry c) ∨ ownError i s = none ∧ hasMeaning i s ∧ t = effect i s := by
  constructor
  · intro h
    cases e : ownError i s with
    | some c =>
      rw [exec_of_ownError e] at h
      cases h
      exact .inl ⟨c, rfl, rfl⟩
    | none =>
      have m := hasMeaning_of_exec_next h e
      rw [exec_of_passed e m] at h
      cases h
      exact .inr ⟨rfl, m, rfl⟩
  · rintro (⟨c, e, rfl⟩ | ⟨e, m, rfl⟩)
    · exact exec_of_ownError e
    · exact exec_of_passed e m

theorem entropyError_ne_ok (n : Nat) : entropyError n ≠ some .ok := by
  unfold entropyError
  split_ifs <;> simp

/-- No command's own error is `OK`. -/
theorem ownError_ne_ok {c : Status} (h : ownError i s = some c) : c ≠ .ok := by
  rintro rfl
  cases i with
  | cfge n => exact entropyError_ne_ok n h
  | wipe => cases h
  | _ => cases (check_eq_some.mp h).2

end Sys2Proof.Machine
end

section
/-! PROOFS. The step (10_state.md section 8): a step runs the decoded command, and the host's later moves have no part
in what it does. -/

namespace Sys2Proof.Machine

variable {i : Instr} {w : Word} {rest : List HostMove} {s t : State}

/-- A step on a command word takes that move and runs the word. -/
theorem step_command (h : s.host = .command w :: rest) : step s = runCommand w (s.accept rest) := by
  rw [step, h]

theorem runCommand_of_decode (h : decode w = .ok i) : runCommand w s = exec i s := by
  rw [runCommand, h]

theorem runCommand_of_illegal {e : Illegal} (h : decode w = .error e) :
    runCommand w s = .next (s.errorEntry .illegalCommand) := by
  rw [runCommand, h]
  rfl

/-- Settles O7: the step takes the move and runs the word, which is the command it decodes to. -/
theorem stepRunsTheDecodedCommand : Obligations.StepRunsTheDecodedCommand := by
  unfold Obligations.StepRunsTheDecodedCommand
  intro s w rest i host dec
  rw [step_command host, runCommand_of_decode dec]
  rfl

/-- Settles O8: with no move pending the step is `wait`, which is the identity. -/
theorem waitingChangesNothing : Obligations.WaitingChangesNothing := by
  unfold Obligations.WaitingChangesNothing
  intro s host
  rw [step, host]
  rfl

/-! ### The pending moves are no input of a command -/

theorem ownError_withHost (moves : List HostMove) : ownError i { s with host := moves } = ownError i s := by
  cases i <;> rfl

theorem hasMeaning_withHost (moves : List HostMove) : hasMeaning i { s with host := moves } = hasMeaning i s := by
  cases i <;> rfl

theorem effect_withHost (moves : List HostMove) :
    effect i { s with host := moves } = { effect i s with host := moves } := by
  cases i <;> rfl

/-- A command does the same whatever moves are pending, and carries them through. -/
theorem exec_withHost (h : exec i s = .next t) (moves : List HostMove) :
    exec i { s with host := moves } = .next { t with host := moves } := by
  rw [exec_next_iff, ownError_withHost, hasMeaning_withHost, effect_withHost]
  rcases exec_next_iff.mp h with ⟨c, e, rfl⟩ | ⟨e, m, rfl⟩
  · exact .inl ⟨c, e, rfl⟩
  · exact .inr ⟨e, m, rfl⟩

/-- So does every command word, the illegal ones among them. -/
theorem runCommand_withHost (h : runCommand w s = .next t) (moves : List HostMove) :
    runCommand w { s with host := moves } = .next { t with host := moves } := by
  cases d : decode w with
  | ok i =>
    rw [runCommand_of_decode d] at h ⊢
    exact exec_withHost h moves
  | error e =>
    rw [runCommand_of_illegal d] at h ⊢
    cases h
    rfl

/-- Settles O12: `rst` overwrites the state, and a command word does the same whatever moves are pending. -/
theorem laterMovesDoNotMatter : Obligations.LaterMovesDoNotMatter := by
  unfold Obligations.LaterMovesDoNotMatter
  intro s t m rest rest' h
  cases m with
  | rst => cases h; rfl
  | command w =>
    rw [step_command rfl] at h ⊢
    exact runCommand_withHost h rest'

end Sys2Proof.Machine
end

section
/-! PROOFS. The invariants of 10_state.md R37: reset meets them, every step keeps them, and under them no command lacks
its meaning, so that every step answers and every run goes on. -/

namespace Sys2Proof.Machine

variable {i : Instr} {w : Word} {rest : List HostMove} {s t : State}

/-! ### The configurations that `CFGE` and `CFGD` accept -/

/-- `CFGE` accepts only the entropy lengths of 4 to 8 checksum bits (42_encoder.md R162; 00_scope.md R7). -/
theorem exists_of_entropyError_eq_none {n : Nat} (h : entropyError n = none) : ∃ c, 4 ≤ c ∧ c ≤ 8 ∧ n = 4 * c := by
  unfold entropyError at h
  split_ifs at h with low high aligned
  simp only [encEnt, Config.entMinBits, Config.entMaxBits, Config.entStepBits] at low high aligned
  exact ⟨n / 4, by omega, by omega, by omega⟩

/-- `CFGD` accepts only the word counts of 4 to 8 checksum bits (43_decoder.md R182; 00_scope.md R7). -/
theorem exists_of_wordCountOk {ms : Nat} (h : wordCountOk ms) : ∃ c, 4 ≤ c ∧ c ≤ 8 ∧ ms = 3 * c := by
  obtain ⟨sum, low, high⟩ := h
  simp only [decCs, decEnt, decEntPlusCs, Config.entMinBits, Config.entMaxBits] at sum low high
  exact ⟨ms / 3, by omega, by omega, by omega⟩

/-! ### Commands keep the invariants -/

/-- The invariants ask of the buffer its canonical form alone. -/
theorem State.Inv.withBuf (h : s.Inv) {m : Memory} (wf : m.wf) : { s with buf := m }.Inv := by
  obtain ⟨-, others⟩ := h
  exact ⟨wf, others⟩

/-- An idle block may have any length that the buffer has. -/
theorem State.Inv.idle (h : s.Inv) {n : BitVec 6} (len : n.toNat ≤ 33) : { s with len := n, mode := .idle }.Inv := by
  obtain ⟨wf, -, digest, cs, ms, -, verified⟩ := h
  exact ⟨wf, len, digest, cs, ms, ⟨nofun, nofun, nofun⟩, verified⟩

/-- `CSVFY` records its verdict in an idle block with a zeroed buffer. -/
theorem csvfyCheck_inv (h : s.Inv) (d : Config.Digest) : (csvfyCheck d s).Inv := by
  obtain ⟨-, len, -, cs, ms, -, -⟩ := h
  exact ⟨Memory.zeroed_wf, len, rfl, cs, ms, ⟨nofun, nofun, nofun⟩, nofun⟩

/-- The configuration for `c` checksum bits and the length of its phase (00_scope.md R7; 10_state.md R37). -/
def State.configuredFor (s : State) (c : Nat) : Prop :=
  4 ≤ c ∧ c ≤ 8 ∧ s.cs.toNat = c ∧ s.ms.toNat = 3 * c ∧
    (s.mode = .encLoad ∧ s.len.toNat = 4 * c ∨ (s.mode = .encReady ∨ s.mode = .dec) ∧ s.len.toNat = 4 * c + 1)

/-- Of a configured block the invariants ask the canonical buffer, the zeroed digest and the verdict's flags. -/
theorem State.configuredFor.inv {c : Nat} (h : s.configuredFor c) (wf : s.buf.wf)
    (digest : s.digest = Vector.replicate 32 0) (verified : s.vfd = false → s.csok = false) : s.Inv := by
  obtain ⟨low, high, cs, ms, phase⟩ := h
  refine ⟨wf, by omega, digest, by omega, by omega, ?_, verified⟩
  rcases phase with ⟨mode, len⟩ | ⟨mode | mode, len⟩
  · exact ⟨fun _ => by omega, by simp [mode], by simp [mode]⟩
  · exact ⟨by simp [mode], fun _ => by omega, by simp [mode]⟩
  · exact ⟨by simp [mode], by simp [mode], fun _ => by omega⟩

/-- In a flow the block is configured for its own `CS`. -/
theorem State.Inv.configuredFor (h : s.Inv) (flow : s.mode ≠ .idle) : s.configuredFor s.cs.toNat := by
  obtain ⟨-, -, -, cs, ms, ⟨encLoad, encReady, dec⟩, -⟩ := h
  cases mode : s.mode with
  | idle => exact absurd mode flow
  | encLoad =>
    obtain ⟨low, len⟩ := encLoad mode
    exact ⟨low, by omega, rfl, ms, .inl ⟨mode, len⟩⟩
  | encReady =>
    obtain ⟨low, len⟩ := encReady mode
    exact ⟨low, by omega, rfl, ms, .inr ⟨.inl mode, len⟩⟩
  | dec =>
    obtain ⟨low, len⟩ := dec mode
    exact ⟨low, by omega, rfl, ms, .inr ⟨.inr mode, len⟩⟩

theorem toNat_ofNat_of_lt {w n : Nat} (h : n < 2 ^ w) : (BitVec.ofNat w n).toNat = n := by
  rw [BitVec.toNat_ofNat, Nat.mod_eq_of_lt h]

theorem effect_cfge_configuredFor {n : Nat} (passed : ownError (.cfge n) s = none) :
    ∃ c, (effect (.cfge n) s).configuredFor c := by
  obtain ⟨c, low, high, rfl⟩ := exists_of_entropyError_eq_none passed
  refine ⟨c, low, high, ?_, ?_, .inl ⟨rfl, toNat_ofNat_of_lt (by omega)⟩⟩
  · simp only [effect, encCs_four_mul]
    exact toNat_ofNat_of_lt (by omega)
  · simp only [effect, encMs_four_mul]
    exact toNat_ofNat_of_lt (by omega)

theorem effect_cfgd_configuredFor {ms : Nat} (passed : ownError (.cfgd ms) s = none) :
    ∃ c, (effect (.cfgd ms) s).configuredFor c := by
  obtain ⟨c, low, high, rfl⟩ := exists_of_wordCountOk (check_eq_none.mp passed)
  refine ⟨c, low, high, ?_, toNat_ofNat_of_lt (by omega), .inr ⟨.inr rfl, ?_⟩⟩
  · simp only [effect, decCs_three_mul]
    exact toNat_ofNat_of_lt (by omega)
  · simp only [effect, decLen_three_mul (show 1 ≤ c by omega) high]
    exact toNat_ofNat_of_lt (by omega)

theorem effect_csapp_configuredFor (h : s.configuredFor s.cs.toNat) :
    (effect .csapp s).configuredFor s.cs.toNat := by
  obtain ⟨low, high, -, ms, -⟩ := h
  exact ⟨low, high, rfl, ms, .inr ⟨.inl rfl, toNat_ofNat_of_lt (by unfold State.eb; omega)⟩⟩

/-- Settles O14: in the reset state everything is 0. -/
theorem resetMeetsTheInvariants : Obligations.ResetMeetsTheInvariants := by
  unfold Obligations.ResetMeetsTheInvariants
  exact ⟨Memory.zeroed_wf, by decide, rfl, .inl rfl, rfl, ⟨nofun, nofun, nofun⟩, fun _ => rfl⟩

/-- The effect of a command whose check passed meets the invariants again. -/
theorem effect_inv (h : s.Inv) (passed : ownError i s = none) : (effect i s).Inv := by
  obtain ⟨wf, len, digest, -, -, -, verified⟩ := id h
  cases i with
  | rd11 | getb | geti | stat | puti => exact h
  | wr11 val off => exact h.withBuf (write11_wf wf len val off)
  | putb a d =>
    have below : a < s.len.toNat := check_eq_none.mp passed
    exact h.withBuf (Memory.write_wf wf (by omega) d)
  | pack => exact h.withBuf (packLoop_wf wf len s.idx s.ms.toNat)
  | setlen n =>
    have bound : n ≤ 33 := check_eq_none.mp passed
    exact h.idle (n := BitVec.ofNat 6 n) ((toNat_ofNat_of_lt (by omega)).trans_le bound)
  | unpk => exact (h.withBuf Memory.zeroed_wf).idle len
  | csvfy => exact csvfyCheck_inv h _
  | wipe => exact resetMeetsTheInvariants
  | cfge n =>
    obtain ⟨c, configured⟩ := effect_cfge_configuredFor passed
    exact configured.inv wf digest verified
  | cfgd ms =>
    obtain ⟨c, configured⟩ := effect_cfgd_configuredFor passed
    exact configured.inv Memory.zeroed_wf digest verified
  | csapp =>
    have loading : s.mode = .encLoad := check_eq_none.mp passed
    have configured := h.configuredFor (by simp [loading])
    have high : s.cs.toNat ≤ 8 := configured.2.1
    exact (effect_csapp_configuredFor configured).inv (Memory.write_wf wf (by unfold State.eb; omega) _) rfl verified

/-- Every command keeps the invariants: error entry touches `ERR` and the response alone. -/
theorem exec_inv (h : s.Inv) (run : exec i s = .next t) : t.Inv := by
  rcases exec_next_iff.mp run with ⟨c, -, rfl⟩ | ⟨passed, -, rfl⟩
  · exact h
  · exact effect_inv h passed

/-- Settles O13, over everything a step can do: wait, `rst`, a command, an illegal word. -/
theorem everyStepKeepsTheInvariants : Obligations.EveryStepKeepsTheInvariants := by
  unfold Obligations.EveryStepKeepsTheInvariants
  intro s t h run
  rcases step_cases run with ⟨-, rfl⟩ | ⟨rest, -, rfl⟩ | ⟨w, rest, i, -, -, ran⟩ | ⟨w, rest, e, -, -, rfl⟩
  · exact h
  · exact resetMeetsTheInvariants
  · have accepted : (s.accept rest).Inv := h
    exact exec_inv accepted ran
  · exact h

/-! ### Under the invariants every step answers -/

/-- Under the invariants everything that a command names exists. -/
theorem hasMeaning_of_inv (h : s.Inv) (passed : ownError i s = none) : hasMeaning i s := by
  obtain ⟨-, len, -, cs, ms, -, -⟩ := id h
  have words : s.ms.toNat ≤ 24 := by omega
  cases i with
  | rd11 | wr11 | putb | getb => exact len
  | unpk | pack => exact ⟨len, words⟩
  | csapp =>
    show 4 * s.cs.toNat < 33
    omega
  | csvfy =>
    have decoding : s.mode = .dec := check_eq_none.mp passed
    obtain ⟨low, high, -⟩ := h.configuredFor (by simp [decoding])
    exact ⟨low, high⟩
  | _ => trivial

/-- Under the invariants a command whose check passes has its effect. -/
theorem exec_of_inv (h : s.Inv) (passed : ownError i s = none) : exec i s = .next (effect i s) :=
  exec_of_passed passed (hasMeaning_of_inv h passed)

theorem effect_host : (effect i s).host = s.host := by
  cases i <;> rfl

theorem exists_effect_rsp : ∃ r, (effect i s).rsp = some r := by
  cases i <;> exact ⟨_, rfl⟩

/-- Under the invariants every command answers, and leaves the host's moves. -/
theorem exec_answers (h : s.Inv) (i : Instr) :
    ∃ t r, exec i s = .next t ∧ t.rsp = some r ∧ t.host = s.host := by
  cases e : ownError i s with
  | some c => exact ⟨_, _, exec_of_ownError e, rfl, rfl⟩
  | none =>
    obtain ⟨r, answered⟩ := exists_effect_rsp (i := i) (s := s)
    exact ⟨_, r, exec_of_inv h e, answered, effect_host⟩

/-- Under the invariants a command word answers, and the step takes it from the host's moves. -/
theorem step_command_answers (h : s.Inv) (host : s.host = .command w :: rest) :
    ∃ t r, step s = .next t ∧ t.rsp = some r ∧ t.host = rest := by
  rw [step_command host]
  cases d : decode w with
  | ok i =>
    rw [runCommand_of_decode d]
    have accepted : (s.accept rest).Inv := h
    exact exec_answers accepted i
  | error e => exact ⟨_, _, runCommand_of_illegal d, rfl, rfl⟩

/-- Settles O11: a command answers with its own error or its effect, and an illegal word with error entry. -/
theorem oneResponsePerCommand : Obligations.OneResponsePerCommand := by
  unfold Obligations.OneResponsePerCommand
  intro s w rest h host
  exact step_command_answers h host

/-- Under the invariants every step answers a next state. -/
theorem exists_step (h : s.Inv) : ∃ t, step s = .next t := by
  cases host : s.host with
  | nil => exact ⟨s, waitingChangesNothing s host⟩
  | cons move rest =>
    cases move with
    | rst => exact ⟨s.assertRst rest, by rw [step, host]⟩
    | command w =>
      obtain ⟨t, -, run, -⟩ := step_command_answers h host
      exact ⟨t, run⟩

/-- A run of one step more goes on from the state after its first step. -/
theorem run_succ (run : step s = .next t) (k : Nat) :
    Host.Core.run Sys2Proof.core (k + 1) s = Host.Core.run Sys2Proof.core k t := by
  have first : Sys2Proof.core.step s = .next t := run
  simp only [Host.Core.run, first]

/-- Settles O15, by induction on the number of steps: every step answers a state that meets the invariants. -/
theorem everyRunGoesOn : Obligations.EveryRunGoesOn := by
  unfold Obligations.EveryRunGoesOn
  intro k
  induction k with
  | zero => exact fun s h => ⟨s, rfl, h⟩
  | succ k ih =>
    intro s h
    obtain ⟨t, run⟩ := exists_step h
    rw [run_succ run]
    exact ih t (everyStepKeepsTheInvariants s t h run)

end Sys2Proof.Machine
end

section
/-! PROOFS. The two status words (10_state.md R32, R33): their fields are the parts that the word is put together from,
and its value is the sum of the parts at their places. -/

namespace Sys2Proof.Machine

/-- The value of two words put together. -/
theorem toNat_append_eq_add {m n : Nat} (x : BitVec m) (y : BitVec n) :
    (x ++ y).toNat = x.toNat * 2 ^ n + y.toNat := by
  rw [BitVec.toNat_append, ← Nat.shiftLeft_add_eq_or_of_lt y.isLt, Nat.shiftLeft_eq]

theorem toNat_flagBit (b : Bool) : (flagBit b).toNat = b.toNat := by
  cases b <;> rfl

/-- The value of `STATUS`. -/
theorem toNat_status (s : State) :
    s.status.toNat = s.err.code.toNat + s.mode.code.toNat * 2 ^ 4 + s.csok.toNat * 2 ^ 6 + s.vfd.toNat * 2 ^ 7 +
      s.len.toNat * 2 ^ 8 + s.ms.toNat * 2 ^ 14 + s.cs.toNat * 2 ^ 19 := by
  simp only [State.status, toNat_append_eq_add, toNat_flagBit, BitVec.toNat_ofNat]
  omega

/-- The value of `AUX`. -/
theorem toNat_aux (s : State) : s.aux.toNat = s.csb.toNat + s.obs.toNat * 2 ^ 8 := by
  simp only [State.aux, toNat_append_eq_add, BitVec.toNat_ofNat]
  omega

/-- A field of a word, from the word's value. -/
theorem extractLsb'_eq_of_toNat {n width start : Nat} {x : BitVec n} {v : BitVec width}
    (h : x.toNat / 2 ^ start % 2 ^ width = v.toNat) : x.extractLsb' start width = v := by
  apply BitVec.eq_of_toNat_eq
  rw [BitVec.extractLsb'_toNat, Nat.shiftRight_eq_div_pow, h]

/-- A field of `STATUS`, from the sum of its parts. -/
theorem extractLsb'_status {width start : Nat} {s : State} {v : BitVec width}
    (h : (s.err.code.toNat + s.mode.code.toNat * 2 ^ 4 + s.csok.toNat * 2 ^ 6 + s.vfd.toNat * 2 ^ 7 +
      s.len.toNat * 2 ^ 8 + s.ms.toNat * 2 ^ 14 + s.cs.toNat * 2 ^ 19) / 2 ^ start % 2 ^ width = v.toNat) :
    s.status.extractLsb' start width = v :=
  extractLsb'_eq_of_toNat (by rw [toNat_status, h])

/-- Settles O16: each field is read off the sum of the parts. -/
theorem statusWordFields : Obligations.StatusWordFields := by
  unfold Obligations.StatusWordFields
  refine ⟨rfl, rfl, rfl, rfl, fun s => ?_⟩
  have csok : s.csok.toNat ≤ 1 := Bool.toNat_le s.csok
  have vfd : s.vfd.toNat ≤ 1 := Bool.toNat_le s.vfd
  exact ⟨extractLsb'_status (by omega), extractLsb'_status (by omega),
    extractLsb'_status (by rw [BitVec.toNat_ofBool]; omega), extractLsb'_status (by rw [BitVec.toNat_ofBool]; omega),
    extractLsb'_status (by omega), extractLsb'_status (by omega), extractLsb'_status (by omega),
    extractLsb'_status (by change _ = 0; omega), toNat_status s, rfl, rfl⟩

/-- A field of `AUX`, from the sum of its parts. -/
theorem extractLsb'_aux {width start : Nat} {s : State} {v : BitVec width}
    (h : (s.csb.toNat + s.obs.toNat * 2 ^ 8) / 2 ^ start % 2 ^ width = v.toNat) :
    s.aux.extractLsb' start width = v :=
  extractLsb'_eq_of_toNat (by rw [toNat_aux, h])

/-- Settles O17: each field is read off the sum of the parts. -/
theorem auxWordFields : Obligations.AuxWordFields := by
  unfold Obligations.AuxWordFields
  intro s
  exact ⟨extractLsb'_aux (by omega), extractLsb'_aux (by omega), extractLsb'_aux (by change _ = 0; omega),
    toNat_aux s, rfl, rfl⟩

end Sys2Proof.Machine
end

section
/-! PROOFS. Whole-machine rules of 10_state.md about `MODE` and about who writes which piece of state (R21 to R31). -/

namespace Sys2Proof.Machine

variable {i : Instr} {s t : State}

/-! ### The commands that do not read `MODE` (R25) -/

/-- A command's own check reads `MODE` only in the four commands of a flow. -/
theorem ownError_withMode (other : i ∉ [.csapp, .unpk, .pack, .csvfy]) (m : Mode) :
    ownError i { s with mode := m } = ownError i s := by
  cases i with
  | csapp | unpk | pack | csvfy => simp at other
  | _ => rfl

theorem hasMeaning_withMode (m : Mode) : hasMeaning i { s with mode := m } = hasMeaning i s := by
  cases i <;> rfl

/-- An effect other than `STAT 0`'s shows `MODE` in no other piece of state and in no response. -/
theorem effect_withMode (report : i ≠ .stat 0) (m : Mode) :
    effect i { s with mode := m } = { effect i s with mode := (effect i { s with mode := m }).mode } := by
  cases i with
  | stat sel =>
    have selector : sel ≠ 0 := fun zero => report (congrArg Instr.stat zero)
    simp only [effect, if_neg selector]
    rfl
  | _ => rfl

/-- An effect keeps `MODE`, or sets it to one value. -/
theorem effect_mode_kept_or_set (m : Mode) :
    (effect i s).mode = s.mode ∧ (effect i { s with mode := m }).mode = m ∨
      (effect i { s with mode := m }).mode = (effect i s).mode := by
  cases i with
  | csapp | csvfy | cfge | unpk | cfgd | setlen | wipe => exact .inr rfl
  | _ => exact .inl ⟨rfl, rfl⟩

/-- Settles O47: neither the check nor the effect of such a command reads `MODE`. -/
theorem otherCommandsIgnoreTheMode : Obligations.OtherCommandsIgnoreTheMode := by
  unfold Obligations.OtherCommandsIgnoreTheMode
  intro i s t m csapp unpk pack csvfy stat run
  have other : i ∉ [.csapp, .unpk, .pack, .csvfy] := by simp [csapp, unpk, pack, csvfy]
  rcases exec_next_iff.mp run with ⟨c, e, rfl⟩ | ⟨e, meaning, rfl⟩
  · exact ⟨_, exec_of_ownError ((ownError_withMode other m).trans e), rfl, .inl ⟨rfl, rfl⟩⟩
  · rw [← hasMeaning_withMode m] at meaning
    exact ⟨_, exec_of_passed ((ownError_withMode other m).trans e) meaning, effect_withMode stat m,
      effect_mode_kept_or_set m⟩

/-! ### Who changes what -/

/-- Settles O48: error entry keeps `MODE`, and each effect that changes it is one that the table of R25 names. -/
theorem howAModeChanges : Obligations.HowAModeChanges := by
  unfold Obligations.HowAModeChanges
  intro i s t run changed
  rcases exec_next_iff.mp run with ⟨c, -, rfl⟩ | ⟨passed, -, rfl⟩
  · exact absurd rfl changed
  · cases i with
    | cfge n => exact ⟨fun _ => ⟨n, rfl⟩, nofun, nofun, nofun⟩
    | csapp => exact ⟨nofun, fun _ => ⟨rfl, check_eq_none.mp passed⟩, nofun, nofun⟩
    | cfgd ms => exact ⟨nofun, nofun, fun _ => ⟨ms, rfl⟩, nofun⟩
    | wipe => exact ⟨nofun, nofun, nofun, fun _ => .inl rfl⟩
    | setlen n => exact ⟨nofun, nofun, nofun, fun _ => .inr (.inl ⟨n, rfl⟩)⟩
    | unpk => exact ⟨nofun, nofun, nofun, fun _ => .inr (.inr (.inl ⟨rfl, check_eq_none.mp passed⟩))⟩
    | csvfy => exact ⟨nofun, nofun, nofun, fun _ => .inr (.inr (.inr ⟨rfl, check_eq_none.mp passed⟩))⟩
    | _ => exact absurd rfl changed

/-- An effect changes `ERR` only in `WIPE`, or with a non-zero status: the verdict of `CSVFY`. -/
theorem effect_err (changed : (effect i s).err ≠ s.err) :
    i = .wipe ∨ ∃ r, (effect i s).rsp = some r ∧ r.st ≠ .ok := by
  cases i with
  | wipe => exact .inl rfl
  | csvfy =>
    refine .inr ⟨_, rfl, fun agrees => changed ?_⟩
    have ok : verdict (Config.sha256 s.message) s = .ok := agrees
    simp only [effect, ok, State.latch_err]
    exact ite_eq_right_iff.mpr Eq.symm
  | _ => exact absurd rfl changed

/-- Settles O49: error entry changes `ERR` alone, with a non-zero status. Of an effect, clause by clause and command by
command: it keeps the piece of state, or the clause names the command. -/
theorem writersOfEachRegister : Obligations.WritersOfEachRegister := by
  unfold Obligations.WritersOfEachRegister
  intro i s t run
  rcases exec_next_iff.mp run with ⟨c, e, rfl⟩ | ⟨-, -, rfl⟩
  · simp [ownError_ne_ok e]
  · refine ⟨?_, ?_, ?_, ?_, ?_, ?_, ?_, ?_, effect_err, ?_, effect_host⟩
    all_goals cases i <;> simp [effect, csvfyCheck_eq]

end Sys2Proof.Machine
end

section
/-! PROOFS. The bytes at and beyond `LEN` (10_state.md R21, R36): which commands change them, and that no command shows
them. -/

namespace Sys2Proof.Machine

variable {i : Instr} {s t : State}

/-- In `ENC_LOAD` the length is that of the entropy (10_state.md R37). -/
theorem eb_eq_len_of_encLoad (h : s.Inv) (loading : s.mode = .encLoad) : s.eb = s.len.toNat := by
  obtain ⟨-, -, -, -, -, ⟨encLoad, -, -⟩, -⟩ := h
  exact (encLoad loading).2.symm

/-- In `DEC` the last byte below the length is the checksum's (10_state.md R37). -/
theorem eb_lt_len_of_dec (h : s.Inv) (decoding : s.mode = .dec) : s.eb < s.len.toNat := by
  obtain ⟨-, -, -, -, -, ⟨-, -, dec⟩, -⟩ := h
  exact Nat.lt_of_succ_le (dec decoding).2.ge

/-- Settles O50: a store below `LEN` and an OR into fields below `LEN` leave the bytes at and beyond it, and `CSAPP` stores
one byte, at `LEN`. -/
theorem hiddenBytesPersist : Obligations.HiddenBytesPersist := by
  unfold Obligations.HiddenBytesPersist
  intro i s t h run cfgd unpk csvfy wipe
  obtain ⟨wf, len, -⟩ := id h
  rcases exec_next_iff.mp run with ⟨c, -, rfl⟩ | ⟨passed, -, rfl⟩
  · exact ⟨fun _ _ _ => rfl, fun _ _ _ => rfl⟩
  · cases i with
    | cfgd ms => exact absurd rfl (cfgd ms)
    | unpk => exact absurd rfl unpk
    | csvfy => exact absurd rfl csvfy
    | wipe => exact absurd rfl wipe
    | wr11 val off => exact ⟨fun _ a beyond => read_write11_other wf len val off a (.inl beyond), nofun⟩
    | pack => exact ⟨fun _ a beyond => read_packLoop_above wf len s.idx s.ms.toNat a beyond, nofun⟩
    | putb b d =>
      have below : b < s.len.toNat := check_eq_none.mp passed
      exact ⟨fun _ a beyond => (Memory.read_write wf b a d).trans (if_neg (by omega)), nofun⟩
    | csapp =>
      have atLen := eb_eq_len_of_encLoad h (check_eq_none.mp passed)
      exact ⟨fun other => absurd rfl other,
        fun _ a beyond => (Memory.read_write wf s.eb a _).trans (if_neg (by omega))⟩
    | _ => exact ⟨fun _ _ _ => rfl, nofun⟩

/-! ### Another buffer with the same bytes below `LEN` -/

variable {m : Memory}

theorem ownError_withBuf (m : Memory) : ownError i { s with buf := m } = ownError i s := by
  cases i <;> rfl

/-- The hash message holds bytes below `EB` alone. -/
theorem message_withBuf (below : ∀ a < s.eb, m.read a = s.buf.read a) : { s with buf := m }.message = s.message :=
  List.map_congr_left fun a ha => below a (List.mem_range.mp ha)

/-- The words that `UNPK` takes are fields below `LEN`. -/
theorem unpacked_withBuf (words : s.ms.toNat ≤ 24) (below : ∀ a < s.len.toNat, m.read a = s.buf.read a) :
    { s with buf := m }.unpacked = s.unpacked := by
  apply IndexFile.ext_of_idxGet
  intro wi hwi
  have field : { s with buf := m }.read11 (11 * wi) = s.read11 (11 * wi) := read11_congr below (11 * wi)
  rw [idxGet_unpacked words hwi, idxGet_unpacked (s := { s with buf := m }) words hwi, field]

/-- `CSVFY` reads the hash message and `BUF[EB]`, and zeroes the buffer. -/
theorem effect_csvfy_withBuf (below : ∀ a ≤ s.eb, m.read a = s.buf.read a) :
    effect .csvfy { s with buf := m } = effect .csvfy s := by
  have message := message_withBuf fun a ha => below a (Nat.le_of_lt ha)
  have byte : m.read { s with buf := m }.eb = s.buf.read s.eb := below s.eb le_rfl
  simp only [effect, verdict, csvfyCheck_eq, message, byte]

/-- An effect shows the bytes at and beyond `LEN` in the buffer alone. -/
theorem effect_withBuf (h : s.Inv) (passed : ownError i s = none) (below : ∀ a < s.len.toNat, m.read a = s.buf.read a) :
    effect i { s with buf := m } = { effect i s with buf := (effect i { s with buf := m }).buf } := by
  cases i with
  | rd11 off =>
    have field : { s with buf := m }.read11 off = s.read11 off := read11_congr below off
    simp only [effect, field]
  | getb a =>
    have byte : m.read a = s.buf.read a := below a (check_eq_none.mp passed)
    simp only [effect, byte]
  | csapp =>
    have atLen := eb_eq_len_of_encLoad h (check_eq_none.mp passed)
    have message := message_withBuf fun a ha => below a (ha.trans_eq atLen)
    simp only [effect, message]
    rfl
  | csvfy =>
    have belowLen := eb_lt_len_of_dec h (check_eq_none.mp passed)
    rw [effect_csvfy_withBuf fun a ha => below a (ha.trans_lt belowLen)]
  | unpk =>
    obtain ⟨-, words⟩ : hasMeaning .unpk s := hasMeaning_of_inv h passed
    simp only [effect, unpacked_withBuf words below]
  | _ => rfl

/-- Settles O51: the two states pass or fail the same checks, and their effects show the difference in the buffer alone. -/
theorem hiddenBytesAreNotObserved : Obligations.HiddenBytesAreNotObserved := by
  unfold Obligations.HiddenBytesAreNotObserved
  rintro i s s' h h' ⟨e, below⟩
  generalize s'.buf = m at e below
  subst e
  cases passed : ownError i s with
  | some c =>
    have failed' : ownError i { s with buf := m } = some c := (ownError_withBuf m).trans passed
    exact ⟨_, _, exec_of_ownError passed, exec_of_ownError failed', rfl, rfl, rfl⟩
  | none =>
    have passed' : ownError i { s with buf := m } = none := (ownError_withBuf m).trans passed
    have same := effect_withBuf h passed below
    exact ⟨_, _, exec_of_inv h passed, exec_of_inv h' passed', by rw [same], by rw [same], same⟩

end Sys2Proof.Machine
end

section
/-! PROOFS. The bounds of a field and the order of the words (20_memory.md R64, R71): the guarded third byte has no part
in a field, and each loop leaves the index file or the buffer that its set of word numbers gives. -/

namespace Sys2Proof.Machine

variable {m : Memory} {len off : Nat}

/-! ### The guarded third byte (R64) -/

/-- A guarded third byte stands as 0 in the low byte of the window. -/
theorem window_low_byte (beyond : len ≤ off / 8 + 2) : (m.window len (off / 8)).extractLsb' 0 8 = 0 := by
  apply BitVec.eq_of_getLsbD_eq
  intro i hi
  rw [BitVec.getLsbD_extractLsb', getLsbD_window, if_pos (by omega), Memory.guarded, if_neg (by omega)]
  simp

/-- A field that starts at one of the first six bits of its first byte takes nothing from the third. -/
theorem windowField_append {r : Nat} (start : r ≤ 5) (x y z z' : Byte) :
    windowField (x ++ y ++ z) r = windowField (x ++ y ++ z') r := by
  apply BitVec.eq_of_getLsbD_eq
  intro j hj
  have above : ¬13 - r + j < 8 := by omega
  rw [getLsbD_windowField _ _ _ hj, getLsbD_windowField _ _ _ hj]
  simp only [BitVec.getLsbD_append, if_neg above]

/-- Nor is it placed in the third. -/
theorem placeField_low_byte {r : Nat} (start : r ≤ 5) (v : Index) : (placeField v r).extractLsb' 0 8 = 0 := by
  apply BitVec.eq_of_getLsbD_eq
  intro i hi
  have below : ¬13 - r ≤ 0 + i := by omega
  rw [BitVec.getLsbD_extractLsb', getLsbD_placeField _ _ _ (by omega), decide_eq_false below]
  simp

/-- With its first two bytes below the length, any byte may stand for the third. -/
theorem read11_eq_windowField (bytes : off / 8 + 1 < len) (start : off % 8 ≤ 5) (x : Byte) :
    m.read11 len off = windowField (m.read (off / 8) ++ m.read (off / 8 + 1) ++ x) (off % 8) := by
  have first : m.guarded len (off / 8) = m.read (off / 8) := if_pos (by omega)
  have second : m.guarded len (off / 8 + 1) = m.read (off / 8 + 1) := if_pos bytes
  rw [Memory.read11, Memory.window, first, second]
  exact windowField_append start _ _ _ _

/-- Settles O19: a field whose third byte is guarded ends in its second. -/
theorem guardedByteNeverReachesAResult : Obligations.GuardedByteNeverReachesAResult := by
  unfold Obligations.GuardedByteNeverReachesAResult
  intro m len off wf hlen bound
  have bytes : off / 8 + 1 < len := by omega
  refine ⟨bytes, fun beyond => ?_, fun v a above => read_write11_other wf hlen v off a (.inl above)⟩
  have start : off % 8 ≤ 5 := by omega
  exact ⟨start, window_low_byte beyond, fun x v => ⟨read11_eq_windowField bytes start x, placeField_low_byte start v⟩⟩

/-! ### The order of the words (R71) -/

/-- Registers written in any order: each one listed holds its value. -/
theorem idxGet_foldl_idxPut (f : Nat → Index) {order : List Nat} (exist : ∀ wi ∈ order, wi < 24) (x : IndexFile)
    (i : Nat) :
    idxGet (order.foldl (fun y wi => idxPut y wi (f wi)) x) i = if i ∈ order then f i else idxGet x i := by
  induction order generalizing x with
  | nil => rfl
  | cons w ws ih =>
    obtain ⟨hw, hws⟩ := List.forall_mem_cons.mp exist
    rw [List.foldl_cons, ih hws, idxGet_idxPut _ _ _ _ hw]
    by_cases h : i ∈ ws
    · simp [h]
    · by_cases e : i = w
      · simp [e]
      · simp [h, e]

/-- A word written at its place in the buffer: its 11 bits become old OR new. -/
theorem bit_write11_word (wf : m.wf) (hlen : len ≤ 33) {wi : Nat} (bound : 11 * wi + 11 ≤ 8 * len) (v : Index) (o : Nat) :
    (m.write11 len v (11 * wi)).bit o = (m.bit o || (decide (o / 11 = wi) && v.getLsbD (10 - o % 11))) := by
  rw [bit_write11 wf hlen bound]
  by_cases inside : o / 11 = wi
  · have range : 11 * wi ≤ o ∧ o ≤ 11 * wi + 10 := by omega
    have place : 11 * wi + 10 - o = 10 - o % 11 := by omega
    simp [inside, range, place]
  · have range : ¬(11 * wi ≤ o ∧ o ≤ 11 * wi + 10) := by omega
    simp [inside, range]

theorem foldl_write11_wf (wf : m.wf) (hlen : len ≤ 33) (f : Nat → Index) (order : List Nat) :
    (order.foldl (fun b wi => b.write11 len (f wi) (11 * wi)) m).wf := by
  induction order generalizing m with
  | nil => exact wf
  | cons w ws ih => exact ih (write11_wf wf hlen (f w) (11 * w))

/-- Words written in any order: the bits of each one listed become old OR new. -/
theorem bit_foldl_write11 (wf : m.wf) (hlen : len ≤ 33) (f : Nat → Index) {order : List Nat}
    (bound : ∀ wi ∈ order, 11 * wi + 11 ≤ 8 * len) (o : Nat) :
    (order.foldl (fun b wi => b.write11 len (f wi) (11 * wi)) m).bit o =
      (m.bit o || (decide (o / 11 ∈ order) && (f (o / 11)).getLsbD (10 - o % 11))) := by
  induction order generalizing m with
  | nil => simp
  | cons w ws ih =>
    obtain ⟨hw, hws⟩ := List.forall_mem_cons.mp bound
    rw [List.foldl_cons, ih (write11_wf wf hlen (f w) (11 * w)) hws, bit_write11_word wf hlen hw]
    by_cases e : o / 11 = w
    · by_cases h : w ∈ ws
      · simp [e, h]
      · simp [e, h]
    · simp [e]

/-- Settles O22: a permutation has the members of the ascending order, and the members decide every register and bit. -/
theorem orderInsideALoopIsFree : Obligations.OrderInsideALoopIsFree := by
  unfold Obligations.OrderInsideALoopIsFree
  intro m len n x order wf hlen words bits perm
  have members : ∀ wi, wi ∈ order ↔ wi < n := fun wi => perm.mem_iff.trans List.mem_range
  constructor
  · apply IndexFile.ext_of_idxGet
    intro i _
    have exist : ∀ wi ∈ order, wi < 24 := fun wi h => ((members wi).mp h).trans_le words
    rw [idxGet_foldl_idxPut (fun wi => m.read11 len (11 * wi)) exist, idxGet_unpackLoop m len x n words]
    simp only [members]
  · apply Memory.ext_of_bits (foldl_write11_wf wf hlen (idxGet x) order) (packLoop_wf wf hlen x n)
    intro o
    have bound : ∀ wi ∈ order, 11 * wi + 11 ≤ 8 * len := fun wi h => by
      have : wi < n := (members wi).mp h
      omega
    have inside : o / 11 < n ↔ o < 11 * n := by omega
    rw [bit_foldl_write11 wf hlen (idxGet x) bound, bit_packLoop wf hlen x bits]
    simp only [members, inside]

end Sys2Proof.Machine
end

section
/-! PROOFS. Which commands may be repeated (20_memory.md R69). A read, a store or an OR keeps what its check looks at, so
that the second one passes too and has its effect on the effect of the first; `UNPK`, `CSVFY` and `CSAPP` leave the phase
that they need. -/

namespace Sys2Proof.Machine

variable {i : Instr} {s t : State}

/-- The commands that return data and change no state. -/
def isRead (i : Instr) : Prop := (∃ o, i = .rd11 o) ∨ (∃ a, i = .getb a) ∨ (∃ wi, i = .geti wi) ∨ ∃ n, i = .stat n

/-- The commands that OR into the buffer. -/
def isOr (i : Instr) : Prop := (∃ v o, i = .wr11 v o) ∨ i = .pack

/-- The commands that store a byte or a register, and those that OR. -/
def isWrite (i : Instr) : Prop := (∃ a d, i = .putb a d) ∨ (∃ wi v, i = .puti wi v) ∨ isOr i

/-- The commands that end one phase of a flow and need that phase. -/
def isComposite (i : Instr) : Prop := i = .unpk ∨ i = .csvfy ∨ i = .csapp

/-! ### Writing twice -/

theorem Memory.write_write_same {m : Memory} (wf : m.wf) {a : Nat} (exist : a < 33) (v : Byte) :
    (m.write a v).write a v = m.write a v := by
  have once : (m.write a v).wf := Memory.write_wf wf exist v
  apply Memory.ext_of_read (Memory.write_wf once exist v) once
  intro b
  rw [Memory.read_write once]
  by_cases same : b = a
  · simp [same, Memory.read_write wf]
  · simp [same]

theorem idxPut_idxPut_same {i : Nat} (exist : i < 24) (x : IndexFile) (v : Index) :
    idxPut (idxPut x i v) i v = idxPut x i v := by
  apply IndexFile.ext_of_idxGet
  intro j _
  rw [idxGet_idxPut _ _ _ _ exist]
  by_cases same : j = i
  · simp [same, idxGet_idxPut _ _ _ _ exist]
  · simp [same]

theorem write11_write11_same {m : Memory} {len off : Nat} (wf : m.wf) (hlen : len ≤ 33) (bound : off + 11 ≤ 8 * len)
    (v : Index) : (m.write11 len v off).write11 len v off = m.write11 len v off := by
  have once : (m.write11 len v off).wf := write11_wf wf hlen v off
  apply Memory.ext_of_bits (write11_wf once hlen v off) once
  intro o
  rw [bit_write11 once hlen bound, bit_write11 wf hlen bound, Bool.or_assoc, Bool.or_self]

theorem packLoop_packLoop_same {m : Memory} {len n : Nat} (wf : m.wf) (hlen : len ≤ 33) (bound : 11 * n ≤ 8 * len)
    (x : IndexFile) : packLoop (packLoop m len x n) len x n = packLoop m len x n := by
  have once : (packLoop m len x n).wf := packLoop_wf wf hlen x n
  apply Memory.ext_of_bits (packLoop_wf once hlen x n) once
  intro o
  rw [bit_packLoop once hlen x bound, bit_packLoop wf hlen x bound, Bool.or_assoc, Bool.or_self]

/-- In `DEC` the words fit into the buffer (10_state.md R37). -/
theorem words_fit_of_dec (h : s.Inv) (decoding : s.mode = .dec) : 11 * s.ms.toNat ≤ 8 * s.len.toNat := by
  obtain ⟨-, high, -, words, ⟨loading, -⟩ | ⟨-, len⟩⟩ := h.configuredFor (by simp [decoding])
  · simp [decoding] at loading
  · omega

/-! ### The command after itself -/

theorem errorEntry_errorEntry_same (c : Status) : (s.errorEntry c).errorEntry c = s.errorEntry c := by
  by_cases clear : s.err = .ok
  · simp [clear]
  · simp [clear]

/-- A command that ended by its own error does so again. -/
theorem exec_again_of_ownError {c : Status} (failed : ownError i s = some c) :
    exec i (s.errorEntry c) = .next (s.errorEntry c) := by
  have again : ownError i (s.errorEntry c) = ownError i s := by cases i <;> rfl
  rw [exec_of_ownError (again.trans failed), errorEntry_errorEntry_same]

/-- What a read or a write leaves passes the same check and has the same meaning. -/
theorem passes_after_effect (repeatable : isRead i ∨ isWrite i) :
    ownError i (effect i s) = ownError i s ∧ hasMeaning i (effect i s) = hasMeaning i s := by
  rcases repeatable with (⟨o, rfl⟩ | ⟨a, rfl⟩ | ⟨wi, rfl⟩ | ⟨n, rfl⟩) |
    ⟨a, d, rfl⟩ | ⟨wi, v, rfl⟩ | ⟨v, o, rfl⟩ | rfl <;> exact ⟨rfl, rfl⟩

/-- A read or a write that passed passes again, and does nothing the second time if its effect twice is its effect once. -/
theorem exec_again_of_passed (repeatable : isRead i ∨ isWrite i) (passed : ownError i s = none) (m : hasMeaning i s)
    (same : effect i (effect i s) = effect i s) : exec i (effect i s) = .next (effect i s) := by
  obtain ⟨check, meaning⟩ := passes_after_effect (s := s) repeatable
  rw [exec_of_passed (check.trans passed) (meaning ▸ m), same]

/-- A read shows in the response alone. -/
theorem effect_of_isRead (read : isRead i) : effect i s = { s with rsp := (effect i s).rsp } := by
  rcases read with ⟨o, rfl⟩ | ⟨a, rfl⟩ | ⟨wi, rfl⟩ | ⟨n, rfl⟩ <;> rfl

/-- No read returns the response of the command before it. -/
theorem effect_effect_of_isRead (read : isRead i) : effect i (effect i s) = effect i s := by
  rcases read with ⟨o, rfl⟩ | ⟨a, rfl⟩ | ⟨wi, rfl⟩ | ⟨n, rfl⟩ <;> rfl

theorem effect_effect_of_isWrite (write : isWrite i) (h : s.Inv) (passed : ownError i s = none) :
    effect i (effect i s) = effect i s := by
  obtain ⟨wf, len, -⟩ := id h
  rcases write with ⟨a, d, rfl⟩ | ⟨wi, v, rfl⟩ | ⟨v, o, rfl⟩ | rfl
  · have below : a < s.len.toNat := check_eq_none.mp passed
    simp only [effect, Memory.write_write_same wf (below.trans_le len) d]
  · simp only [effect, idxPut_idxPut_same (check_eq_none.mp passed) s.idx v]
  · simp only [effect, write11_write11_same wf len (check_eq_none.mp passed) v]
  · have fit := words_fit_of_dec h (check_eq_none.mp passed)
    simp only [effect, State.packed, packLoop_packLoop_same wf len fit s.idx]

/-- An OR clears no bit. -/
theorem bit_effect_of_isOr (ors : isOr i) (h : s.Inv) (passed : ownError i s = none) {o : Nat} (one : s.buf.bit o = true) :
    (effect i s).buf.bit o = true := by
  obtain ⟨wf, len, -⟩ := id h
  rcases ors with ⟨v, off, rfl⟩ | rfl
  · exact (bit_write11 wf len (check_eq_none.mp passed) v o).trans (by rw [one, Bool.true_or])
  · have fit := words_fit_of_dec h (check_eq_none.mp passed)
    exact (bit_packLoop wf len s.idx fit o).trans (by rw [one, Bool.true_or])

/-- The effect of a composite command leaves a phase in which its own check fails. -/
theorem ownError_effect_of_isComposite (composite : isComposite i) :
    ownError i (effect i s) = some .badSequence := by
  rcases composite with rfl | rfl | rfl <;> exact check_eq_some.mpr ⟨nofun, rfl⟩

theorem ownError_of_isComposite (composite : isComposite i) {c : Status} (failed : ownError i s = some c) :
    c = .badSequence := by
  rcases composite with rfl | rfl | rfl <;> exact (check_eq_some.mp failed).2.symm

/-! ### R69 -/

theorem exec_again_of_isRead (read : isRead i) (run : exec i s = .next t) (ok : t.rsp.map Response.st = some .ok) :
    t = { s with rsp := t.rsp } ∧ exec i t = .next t := by
  rcases exec_next_iff.mp run with ⟨c, failed, rfl⟩ | ⟨passed, m, rfl⟩
  · exact absurd (Option.some.inj ok) (ownError_ne_ok failed)
  · exact ⟨effect_of_isRead read, exec_again_of_passed (.inl read) passed m (effect_effect_of_isRead read)⟩

theorem exec_again_of_isWrite (write : isWrite i) (h : s.Inv) (run : exec i s = .next t) :
    exec i t = .next t ∧ (isOr i → ∀ o, s.buf.bit o = true → t.buf.bit o = true) := by
  rcases exec_next_iff.mp run with ⟨c, failed, rfl⟩ | ⟨passed, m, rfl⟩
  · exact ⟨exec_again_of_ownError failed, fun _ _ one => one⟩
  · exact ⟨exec_again_of_passed (.inr write) passed m (effect_effect_of_isWrite write h passed),
      fun ors _ one => bit_effect_of_isOr ors h passed one⟩

theorem exec_again_of_isComposite (composite : isComposite i) (run : exec i s = .next t)
    (accepted : ¬t = s.errorEntry .badSequence) : exec i t = .next (t.errorEntry .badSequence) := by
  rcases exec_next_iff.mp run with ⟨c, failed, rfl⟩ | ⟨-, -, rfl⟩
  · exact absurd (congrArg s.errorEntry (ownError_of_isComposite composite failed)) accepted
  · exact exec_of_ownError (ownError_effect_of_isComposite composite)

/-- Settles O52, a clause for each kind of command: reads, writes and composite commands. -/
theorem repeatingACommand : Obligations.RepeatingACommand := by
  unfold Obligations.RepeatingACommand
  exact ⟨fun i s t read run ok => exec_again_of_isRead read run ok,
    fun i s t write h run => exec_again_of_isWrite write h run,
    fun i s t composite run accepted => exec_again_of_isComposite composite run accepted⟩

end Sys2Proof.Machine
end

section
/-! PROOFS. Decoding by the table (30_encoding.md R103, R97). A word matches at most one row, and the word that a row's
command is encoded as keeps the row's pattern and the word's bits outside the mask: decoding and encoding are each
other's inverse. -/

namespace Sys2Proof

/-! ### The rows of the table -/

/-- Each two patterns differ in a bit that both masks look at. -/
theorem patterns_apart : opcodeTable.Pairwise fun r q => r.pattern &&& q.mask ≠ q.pattern &&& r.mask := by decide

/-- No pattern has a bit outside its mask. -/
theorem pattern_and_mask : ∀ r ∈ opcodeTable, r.pattern &&& r.mask = r.pattern := by decide

theorem match_at_most_one (w : Word) :
    opcodeTable.Pairwise fun r q => ¬(w &&& r.mask = r.pattern ∧ w &&& q.mask = q.pattern) := by
  refine patterns_apart.imp ?_
  rintro r q apart ⟨hr, hq⟩
  apply apart
  rw [← hr, ← hq, BitVec.and_assoc, BitVec.and_assoc, BitVec.and_comm r.mask]

/-! ### Decoding finds the row that matches -/

theorem exists_row_of_decode {w : Word} {i : Instr} (dec : decode w = .ok i) :
    ∃ r ∈ opcodeTable, w &&& r.mask = r.pattern ∧ r.build w = i := by
  unfold decode at dec
  cases found : opcodeTable.find? (rowMatches w) with
  | some r =>
    simp only [found, Except.ok.injEq] at dec
    exact ⟨r, List.mem_of_find?_eq_some found, (rowMatches_iff w r).mp (List.find?_some found), dec⟩
  | none =>
    simp only [found] at dec
    split at dec <;> cases dec

theorem eq_of_matches {w : Word} {r q : Row} (memr : r ∈ opcodeTable) (memq : q ∈ opcodeTable)
    (hr : w &&& r.mask = r.pattern) (hq : w &&& q.mask = q.pattern) : r = q := by
  have symm : Std.Symm fun r q : Row => ¬(w &&& r.mask = r.pattern ∧ w &&& q.mask = q.pattern) :=
    ⟨fun _ _ apart both => apart both.symm⟩
  by_contra ne
  exact (match_at_most_one w).forall memr memq ne ⟨hr, hq⟩

theorem decode_of_row {w : Word} {r : Row} (mem : r ∈ opcodeTable) (hr : w &&& r.mask = r.pattern) :
    decode w = .ok (r.build w) := by
  cases found : opcodeTable.find? (rowMatches w) with
  | none => exact absurd ((rowMatches_iff w r).mpr hr) (List.find?_eq_none.mp found r mem)
  | some q =>
    have hq : w &&& q.mask = q.pattern := (rowMatches_iff w q).mp (List.find?_some found)
    have one : q = r := eq_of_matches (List.mem_of_find?_eq_some found) mem hq hr
    simp only [decode, found, one]

/-- Settles O4: `match_at_most_one` makes the row that the decoder finds first the only one that matches. -/
theorem decodeFollowsTheTable : Obligations.DecodeFollowsTheTable := by
  unfold Obligations.DecodeFollowsTheTable
  refine ⟨rfl, fun w => ⟨fun r mem hr => decode_of_row mem hr, match_at_most_one w, fun noRow => ?_⟩⟩
  cases dec : decode w with
  | ok i =>
    obtain ⟨r, mem, hr, -⟩ := exists_row_of_decode dec
    exact absurd hr (noRow r mem)
  | error e => exact ⟨e, rfl⟩

/-! ### A field and the operand placed in it -/

/-- An operand taken from a word and placed again is the field's part of the word. -/
theorem place_extract (width lo : Nat) (w : Word) :
    place width lo (w.extractLsb' lo width).toNat = w &&& place width lo (2 ^ width - 1) := by
  apply BitVec.eq_of_getLsbD_eq
  intro i hi
  rw [BitVec.getLsbD_and, getLsbD_place _ _ _ _ hi, getLsbD_place _ _ _ _ hi, Nat.testBit_two_pow_sub_one,
    BitVec.testBit_toNat, BitVec.getLsbD_extractLsb']
  by_cases above : lo ≤ i
  · simp [above, Bool.and_comm]
  · simp [above]

theorem place_fieldOff (w : Word) : place 9 0 (fieldOff w) = w &&& 0x1FF := place_extract 9 0 w
theorem place_fieldValO (w : Word) : place 11 9 (fieldValO w).toNat = w &&& 0xFFE00 := place_extract 11 9 w
theorem place_fieldN (w : Word) : place 6 0 (fieldN w) = w &&& 0x3F := place_extract 6 0 w
theorem place_fieldAddr (w : Word) : place 6 8 (fieldAddr w) = w &&& 0x3F00 := place_extract 6 8 w
theorem place_fieldData (w : Word) : place 8 0 (fieldData w).toNat = w &&& 0xFF := place_extract 8 0 w
theorem place_fieldWi (w : Word) : place 5 11 (fieldWi w) = w &&& 0xF800 := place_extract 5 11 w
theorem place_fieldValX (w : Word) : place 11 0 (fieldValX w).toNat = w &&& 0x7FF := place_extract 11 0 w

theorem fieldOff_lt (w : Word) : fieldOff w < 512 := BitVec.isLt _
theorem fieldN_lt (w : Word) : fieldN w < 64 := BitVec.isLt _
theorem fieldAddr_lt (w : Word) : fieldAddr w < 64 := BitVec.isLt _
theorem fieldWi_lt (w : Word) : fieldWi w < 32 := BitVec.isLt _

/-! ### Encoding what a row builds -/

theorem build_wellFormed (w : Word) : ∀ r ∈ opcodeTable, WellFormed (r.build w) := by
  simp [opcodeTable, fieldOff_lt, fieldN_lt, fieldAddr_lt, fieldWi_lt]

/-- Each operand placed again is the word's part in its field, and a row's fields side by side are the bits outside its
mask. -/
theorem encode_build (w : Word) : ∀ r ∈ opcodeTable, encode (r.build w) = r.pattern ||| w &&& ~~~r.mask := by
  simp [opcodeTable, encode, place_fieldOff, place_fieldValO, place_fieldN, place_fieldAddr, place_fieldData,
    place_fieldWi, place_fieldValX, BitVec.or_assoc, ← BitVec.and_or_distrib_left]

theorem encode_build_and_mask (w : Word) {r : Row} (mem : r ∈ opcodeTable) :
    encode (r.build w) &&& r.mask = r.pattern := by
  rw [encode_build w r mem, or_and, pattern_and_mask r mem, BitVec.and_assoc]
  simp

theorem encode_build_of_match {w : Word} {r : Row} (mem : r ∈ opcodeTable) (hr : w &&& r.mask = r.pattern) :
    encode (r.build w) = w := by
  rw [encode_build w r mem, ← hr, ← BitVec.and_or_distrib_left, BitVec.or_not_self, BitVec.and_allOnes]

/-- Settles O3: the command was built by the row that the word matches. -/
theorem encodeOfDecode : Obligations.EncodeOfDecode := by
  unfold Obligations.EncodeOfDecode
  intro w i dec
  obtain ⟨r, mem, hr, rfl⟩ := exists_row_of_decode dec
  exact ⟨build_wellFormed w r mem, encode_build_of_match mem hr⟩

/-- The row of a well-formed command builds it from its own word: an operand reads back from its own field, and as 0 from
a field apart from it. -/
theorem exists_row_build_encode {i : Instr} (fits : WellFormed i) : ∃ r ∈ opcodeTable, r.build (encode i) = i := by
  cases i <;>
    simp [opcodeTable, encode, fieldOff, fieldValO, fieldN, fieldAddr, fieldData, fieldWi, fieldValX, extract_or,
      extract_place_same, extract_place_apart, Nat.mod_eq_of_lt, fits, -BitVec.extractLsb'_toNat]

/-- Settles O2: the word of a command matches the row that builds it. -/
theorem decodeOfEncode : Obligations.DecodeOfEncode := by
  unfold Obligations.DecodeOfEncode
  intro i fits
  obtain ⟨r, mem, build⟩ := exists_row_build_encode fits
  have hr : encode i &&& r.mask = r.pattern := by
    rw [← encode_build_and_mask (encode i) mem, build]
  rw [decode_of_row mem hr, build]

/-- Settles O1: the decoder, run on the seventeen words. -/
theorem specWordsDecode : Obligations.SpecWordsDecode := by
  unfold Obligations.SpecWordsDecode
  decide

end Sys2Proof
end

section
/-! PROOFS. How many words are commands (30_encoding.md R98). A row is matched by one word for each set of bits outside its
mask, and no word is counted in two rows. -/

namespace Sys2Proof

/-! ### A word as the set of its bits -/

/-- The positions of the bits that are 1. -/
def oneBits (w : Word) : Finset Nat := {i ∈ Finset.range 32 | w.getLsbD i}

theorem mem_oneBits {w : Word} {i : Nat} : i ∈ oneBits w ↔ w.getLsbD i := by
  simpa [oneBits, -BitVec.getLsbD_eq_getElem] using BitVec.lt_of_getLsbD

theorem oneBits_inj {x y : Word} : oneBits x = oneBits y ↔ x = y := by
  refine ⟨fun same => BitVec.eq_of_getLsbD_eq fun i _ => Bool.eq_iff_iff.mpr ?_, congrArg oneBits⟩
  rw [← mem_oneBits, ← mem_oneBits, same]

/-- The bits outside a mask. -/
def freeBits (m : Word) : Finset Nat := oneBits (~~~m)

theorem oneBits_and (w m : Word) : oneBits (w &&& m) = oneBits w \ freeBits m := by
  ext i
  simp only [freeBits, Finset.mem_sdiff, mem_oneBits, BitVec.getLsbD_and, BitVec.getLsbD_not]
  by_cases inWord : i < 32
  · simp [inWord]
  · simp [BitVec.getLsbD_of_ge w i (Nat.not_lt.mp inWord)]

theorem disjoint_freeBits {p m : Word} (inside : p &&& m = p) : Disjoint (oneBits p) (freeBits m) := by
  rw [← Finset.sdiff_eq_self_iff_disjoint, ← oneBits_and, inside]

/-- A word that matches has the bits of the pattern, and other bits only outside the mask. -/
theorem and_mask_eq_iff_oneBits {w p m : Word} (inside : p &&& m = p) :
    w &&& m = p ↔ oneBits w ∈ Finset.Icc (oneBits p) (oneBits p ∪ freeBits m) := by
  rw [← oneBits_inj, oneBits_and, le_antisymm_iff, sdiff_le_iff', le_sdiff, and_iff_left (disjoint_freeBits inside),
    and_comm, Finset.mem_Icc, Finset.sup_eq_union]

theorem card_Icc_oneBits {p m : Word} (inside : p &&& m = p) :
    (Finset.Icc (oneBits p) (oneBits p ∪ freeBits m)).card = 2 ^ (freeBits m).card := by
  rw [Finset.card_Icc_finset Finset.subset_union_left, Finset.card_union_of_disjoint (disjoint_freeBits inside),
    Nat.add_sub_cancel_left]

theorem oneBits_ofNat {n : Nat} (fits : n < 2 ^ 32) : oneBits (BitVec.ofNat 32 n) = Finset.equivBitIndices n := by
  ext i
  rw [mem_oneBits, BitVec.getLsbD_ofNat, Finset.equivBitIndices_apply, List.mem_toFinset, Nat.mem_bitIndices]
  simp only [Bool.and_eq_true, decide_eq_true_eq, and_iff_right_iff_imp]
  intro one
  exact (Nat.pow_lt_pow_iff_right (by decide)).mp ((Nat.ge_two_pow_of_testBit one).trans_lt fits)

theorem lt_of_equivBitIndices_subset {n : Nat} (within : Finset.equivBitIndices n ⊆ Finset.range 32) : n < 2 ^ 32 := by
  refine Nat.lt_pow_two_of_testBit n fun i high => Bool.eq_false_iff.mpr fun one => ?_
  exact (Finset.mem_range.mp (within (by simpa using one))).not_ge high

/-! ### The words of a row -/

/-- The words that match a row. -/
def matching (r : Row) : Finset Nat := {n ∈ Finset.range (2 ^ 32) | BitVec.ofNat 32 n &&& r.mask = r.pattern}

/-- A row is matched by one word for each set of free bits. -/
theorem card_matching {r : Row} (inside : r.pattern &&& r.mask = r.pattern) :
    (matching r).card = 2 ^ (freeBits r.mask).card := by
  rw [← card_Icc_oneBits inside]
  refine Finset.card_equiv Finset.equivBitIndices fun n => ?_
  rw [matching, Finset.mem_filter, Finset.mem_range, and_mask_eq_iff_oneBits inside]
  constructor
  · rintro ⟨fits, h⟩
    rwa [oneBits_ofNat fits] at h
  · intro h
    have fits : n < 2 ^ 32 := lt_of_equivBitIndices_subset ((Finset.mem_Icc.mp h).2.trans
      (Finset.union_subset (Finset.filter_subset _ _) (Finset.filter_subset _ _)))
    rw [oneBits_ofNat fits]
    exact ⟨fits, h⟩

/-! ### The words of all rows -/

/-- Where no word matches two rows, the words that match some row are those of each row added up. -/
theorem card_exists_match (rows : List Row)
    (apart : ∀ w : Word, rows.Pairwise fun r q => ¬(w &&& r.mask = r.pattern ∧ w &&& q.mask = q.pattern)) :
    {n ∈ Finset.range (2 ^ 32) | ∃ r ∈ rows, BitVec.ofNat 32 n &&& r.mask = r.pattern}.card =
      (rows.map fun r => (matching r).card).sum := by
  induction rows with
  | nil => simp
  | cons r rows ih =>
    have disjoint : Disjoint (matching r)
        {n ∈ Finset.range (2 ^ 32) | ∃ q ∈ rows, BitVec.ofNat 32 n &&& q.mask = q.pattern} := by
      refine Finset.disjoint_filter.mpr ?_
      rintro n - hr ⟨q, mem, hq⟩
      exact List.rel_of_pairwise_cons (apart _) mem ⟨hr, hq⟩
    simp only [List.exists_mem_cons_iff, Finset.filter_or]
    rw [← matching, Finset.card_union_of_disjoint disjoint, ih fun w => (apart w).of_cons, List.map_cons, List.sum_cons]

theorem isSome_decode_iff (w : Word) : (decode w).toOption.isSome ↔ ∃ r ∈ opcodeTable, w &&& r.mask = r.pattern := by
  constructor
  · intro legal
    cases dec : decode w with
    | ok i =>
      obtain ⟨r, mem, hr, -⟩ := exists_row_of_decode dec
      exact ⟨r, mem, hr⟩
    | error e => simp [dec, Except.toOption] at legal
  · rintro ⟨r, mem, hr⟩
    simp [decode_of_row mem hr, Except.toOption]

/-- Settles O6: the rows' words added up, a power of two for each row. -/
theorem legalWordCount : Obligations.LegalWordCount := by
  unfold Obligations.LegalWordCount
  simp only [isSome_decode_iff]
  rw [card_exists_match opcodeTable match_at_most_one,
    List.map_congr_left fun r mem => card_matching (pattern_and_mask r mem)]
  decide

end Sys2Proof
end

section
/-! PROOFS. The field primitives bit by bit (40_bitpacker.md R121, R123, R127). `read11` is the sum of its field's bits;
`write11` ORs into them and into no other bit; the laws of R127 follow by comparing fields and buffers bit by bit. -/

namespace Sys2Proof.Machine

variable {m : Memory} {len off : Nat}

/-! ### `read11` as a sum (R121) -/

/-- The low `n` bits of a number, summed at their places. -/
theorem sum_testBit_shiftLeft (x n : Nat) : ∑ j ∈ Finset.range n, (x.testBit j).toNat <<< j = x % 2 ^ n := by
  induction n with
  | zero => simp [Nat.mod_one]
  | succ n ih => rw [Finset.sum_range_succ, ih, Nat.mod_pow_succ, Nat.toNat_testBit, Nat.shiftLeft_eq, Nat.mul_comm]

theorem toNat_eq_sum_getLsbD {n : Nat} (x : BitVec n) :
    x.toNat = ∑ j ∈ Finset.range n, (x.getLsbD j).toNat <<< j := by
  simp only [← BitVec.testBit_toNat, sum_testBit_shiftLeft, Nat.mod_eq_of_lt x.isLt]

/-- Settles O18: the bits of `read11` are those of the buffer at `off` to `off + 10`. -/
theorem readFieldIsTheSumOfItsBits : Obligations.ReadFieldIsTheSumOfItsBits := by
  unfold Obligations.ReadFieldIsTheSumOfItsBits
  intro m len off bound
  rw [toNat_eq_sum_getLsbD]
  refine Finset.sum_congr rfl fun j hj => ?_
  rw [getLsbD_read11 bound (Finset.mem_range.mp hj)]

/-! ### `write11` bit by bit (R123) -/

section
variable (wf : m.wf) (hlen : len ≤ 33) (bound : off + 11 ≤ 8 * len)
include wf hlen bound

theorem bit_write11_inside (v : Index) {j : Nat} (hj : j ≤ 10) :
    (m.write11 len v off).bit (off + 10 - j) = (m.bit (off + 10 - j) || v.getLsbD j) := by
  have inside : off ≤ off + 10 - j ∧ off + 10 - j ≤ off + 10 := by omega
  have place : off + 10 - (off + 10 - j) = j := by omega
  rw [bit_write11 wf hlen bound, decide_eq_true inside, Bool.true_and, place]

theorem bit_write11_outside (v : Index) {o : Nat} (outside : o < off ∨ off + 10 < o) :
    (m.write11 len v off).bit o = m.bit o := by
  have notInside : ¬(off ≤ o ∧ o ≤ off + 10) := by omega
  rw [bit_write11 wf hlen bound, decide_eq_false notInside, Bool.false_and, Bool.or_false]

/-- A field that starts at one of the first six bits of its first byte has no bit in the third. -/
theorem read_write11_third (start : off % 8 ≤ 5) (v : Index) :
    (m.write11 len v off).read (off / 8 + 2) = m.read (off / 8 + 2) :=
  read_eq_of_bits fun _ _ => bit_write11_outside wf hlen bound v (by omega)

end

theorem le_of_read_write11_ne (wf : m.wf) (hlen : len ≤ 33) {v : Index} {a : Nat}
    (changed : (m.write11 len v off).read a ≠ m.read a) : a ≤ 32 := by
  by_contra beyond
  exact changed (read_write11_other wf hlen v off a (.inl (by omega)))

/-- Settles O20: the bits and bytes of `write11`, inside the field and outside it. -/
theorem writeFieldBitByBit : Obligations.WriteFieldBitByBit := by
  unfold Obligations.WriteFieldBitByBit
  intro m len off v wf hlen bound
  exact ⟨fun j hj => bit_write11_inside wf hlen bound v hj,
    fun o outside => bit_write11_outside wf hlen bound v outside,
    fun start => ⟨placeField_low_byte start v, read_write11_third wf hlen bound start v⟩,
    fun a changed => le_of_read_write11_ne wf hlen changed⟩

/-! ### The laws of fields (R127) -/

section
variable (wf : m.wf) (hlen : len ≤ 33) (bound : off + 11 ≤ 8 * len)
include wf hlen bound

/-- A field read after a write changes by exactly the bits that it shares with the field written. -/
theorem getLsbD_read11_write11 (v : Index) {off' j : Nat} (bound' : off' + 11 ≤ 8 * len) (hj : j ≤ 10) :
    ((m.write11 len v off).read11 len off').getLsbD j =
      ((m.read11 len off').getLsbD j ||
        (decide (off ≤ off' + 10 - j ∧ off' + 10 - j ≤ off + 10) && v.getLsbD (off + 10 - (off' + 10 - j)))) := by
  have inField : j < 11 := Nat.lt_succ_of_le hj
  rw [getLsbD_read11 bound' inField, getLsbD_read11 bound' inField, bit_write11 wf hlen bound]

theorem read11_write11_same (v : Index) : (m.write11 len v off).read11 len off = m.read11 len off ||| v := by
  apply BitVec.eq_of_getLsbD_eq
  intro j hj
  rw [getLsbD_read11 bound hj, BitVec.getLsbD_or, getLsbD_read11 bound hj,
    bit_write11_inside wf hlen bound v (Nat.le_of_lt_succ hj)]

theorem read11_write11_of_zero (v : Index) (zero : m.read11 len off = 0) :
    (m.write11 len v off).read11 len off = v := by
  rw [read11_write11_same wf hlen bound, zero]
  exact BitVec.zero_or

theorem read11_write11_apart (v : Index) {off' : Nat} (bound' : off' + 11 ≤ 8 * len)
    (apart : off' + 10 < off ∨ off + 10 < off') : (m.write11 len v off).read11 len off' = m.read11 len off' := by
  apply BitVec.eq_of_getLsbD_eq
  intro j hj
  rw [getLsbD_read11 bound' hj, getLsbD_read11 bound' hj, bit_write11_outside wf hlen bound v (by omega)]

theorem write11_zero : m.write11 len 0 off = m := by
  apply Memory.ext_of_bits (write11_wf wf hlen 0 off) wf
  intro o
  simp [bit_write11 wf hlen bound]

theorem write11_write11_comm (v v' : Index) :
    (m.write11 len v off).write11 len v' off = (m.write11 len v' off).write11 len v off := by
  have one : ∀ v, (m.write11 len v off).wf := fun v => write11_wf wf hlen v off
  apply Memory.ext_of_bits (write11_wf (one v) hlen v' off) (write11_wf (one v') hlen v off)
  intro o
  rw [bit_write11 (one v) hlen bound, bit_write11 (one v') hlen bound, bit_write11 wf hlen bound,
    bit_write11 wf hlen bound, Bool.or_right_comm]

theorem read11_write11_write11 (v v' : Index) :
    ((m.write11 len v off).write11 len v' off).read11 len off = m.read11 len off ||| v ||| v' := by
  rw [read11_write11_same (write11_wf wf hlen v off) hlen bound, read11_write11_same wf hlen bound]

end

/-- Settles O21: a lemma for each of the laws (a) to (e). -/
theorem fieldLaws : Obligations.FieldLaws := by
  unfold Obligations.FieldLaws
  intro m len off v v' wf hlen bound
  exact ⟨read11_write11_same wf hlen bound v, read11_write11_of_zero wf hlen bound v, write11_zero wf hlen bound,
    read11_write11_write11 wf hlen bound v v', write11_write11_comm wf hlen bound v v', fun off' bound' =>
      ⟨read11_write11_apart wf hlen bound v bound', fun j hj => getLsbD_read11_write11 wf hlen bound v bound' hj⟩⟩

end Sys2Proof.Machine
end

section
/-! PROOFS. The commands `RD11` and `WR11` (40_bitpacker.md R125, R126), and how the words of one opcode run, for every
opcode. -/

namespace Sys2Proof.Machine

/-- The words of an opcode run as `commandWords` says when they decode to its command, or to an illegal word if a
must-be-zero bit is 1. -/
theorem commandWords_of_decode {op : BitVec 4} {zeros : Word} {build : Word → Instr}
    (dec : ∀ {w}, fieldOp w = op →
      decode w = if w &&& zeros = 0 then .ok (build w) else .error .mustBeZeroBit) :
    commandWords op zeros build := by
  intro w s rest host opcode
  have decoded := dec opcode
  rw [step_command host]
  by_cases clear : w &&& zeros = 0
  · rw [if_pos clear] at decoded ⊢
    exact runCommand_of_decode decoded
  · rw [if_neg clear] at decoded ⊢
    exact runCommand_of_illegal decoded

/-- Settles O23: out of bounds the check of `RD11` fails; in bounds it answers `read11` of the buffer. -/
theorem rd11ReadsAField : Obligations.Rd11ReadsAField := by
  unfold Obligations.Rd11ReadsAField
  refine ⟨commandWords_of_decode decode_op1, fun off s len => ⟨fun beyond => ?_, fun bound => ?_⟩⟩
  · exact exec_of_ownError (check_eq_some.mpr ⟨Nat.not_le.mpr beyond, rfl⟩)
  · exact ⟨s.read11 off, exec_of_passed (check_eq_none.mpr bound) len,
      fun j hj => getLsbD_read11 bound (Nat.lt_succ_of_le hj)⟩

/-- Settles O24: out of bounds the check of `WR11` fails; in bounds it leaves `write11` of the buffer. -/
theorem wr11OrsAField : Obligations.Wr11OrsAField := by
  unfold Obligations.Wr11OrsAField
  refine ⟨commandWords_of_decode decode_op2, fun val off s len wf => ⟨fun beyond => ?_, fun bound => ?_⟩⟩
  · exact exec_of_ownError (check_eq_some.mpr ⟨Nat.not_le.mpr beyond, rfl⟩)
  · exact ⟨effect (.wr11 val off) s, exec_of_passed (check_eq_none.mpr bound) len,
      fun j hj => bit_write11_inside wf len bound val hj, fun o outside => bit_write11_outside wf len bound val outside,
      fun a other => read_write11_other wf len val off a (by omega), rfl⟩

end Sys2Proof.Machine
end

section
/-! PROOFS. The checksum extractor (41_checksum.md): the mask and the compare bit by bit, the commands `CSAPP` and `CSVFY`,
and the request they make on the hash port. -/

namespace Sys2Proof.Machine

variable {i : Instr} {s t : State}

/-! ### The mask (R146) -/

/-- `csmask` has 1s from bit `8 - CS` up. -/
theorem getLsbD_csmask (cs : BitVec 4) {j : Nat} (hj : j < 8) :
    (csmask cs).getLsbD j = decide (8 - cs.toNat ≤ j) := by
  rw [csmask, BitVec.getLsbD_not, BitVec.getLsbD_ofNat, Nat.one_shiftLeft, Nat.testBit_two_pow_sub_one]
  simp only [decide_eq_true hj, Bool.true_and, ← decide_not, Nat.not_lt]

/-- Settles O25: the bits are those of `getLsbD_csmask`, and in `DEC` the invariants give the configuration of `CS` bits. -/
theorem checksumMask : Obligations.ChecksumMask := by
  unfold Obligations.ChecksumMask
  refine ⟨fun cs _ _ j hj => getLsbD_csmask cs hj, rfl, rfl, rfl, rfl, rfl, fun s h decoding => ?_⟩
  obtain ⟨low, high, -⟩ := h.configuredFor (by simp [decoding])
  exact ⟨low, high⟩

/-! ### The compare (R147) -/

theorem checksumAgrees_iff {cs : BitVec 4} {x y : Byte} :
    checksumAgrees cs x y = true ↔ x &&& csmask cs = y &&& csmask cs := beq_iff_eq

/-- Bytes are equal under the mask when each bit from `8 - CS` up is equal. -/
theorem and_csmask_eq_iff (cs : BitVec 4) (x y : Byte) :
    x &&& csmask cs = y &&& csmask cs ↔ ∀ j < 8, 8 - cs.toNat ≤ j → x.getLsbD j = y.getLsbD j := by
  rw [BitVec.eq_of_getLsbD_eq_iff]
  refine forall₂_congr fun j hj => ?_
  rw [BitVec.getLsbD_and, BitVec.getLsbD_and, getLsbD_csmask cs hj]
  by_cases top : 8 - cs.toNat ≤ j
  · simp [top]
  · simp [top]

/-- Bytes shifted right by `n` are equal when each bit from `n` up is equal. -/
theorem ushiftRight_eq_iff (x y : Byte) (n : Nat) :
    x >>> n = y >>> n ↔ ∀ j < 8, n ≤ j → x.getLsbD j = y.getLsbD j := by
  constructor
  · intro same j _ top
    have bit := congrArg (BitVec.getLsbD · (j - n)) same
    simpa [BitVec.getLsbD_ushiftRight, Nat.add_sub_of_le top] using bit
  · intro bits
    refine BitVec.eq_of_getLsbD_eq fun j _ => ?_
    rw [BitVec.getLsbD_ushiftRight, BitVec.getLsbD_ushiftRight]
    by_cases inside : n + j < 8
    · exact bits (n + j) inside (Nat.le_add_right n j)
    · rw [BitVec.getLsbD_of_ge x _ (Nat.le_of_not_lt inside), BitVec.getLsbD_of_ge y _ (Nat.le_of_not_lt inside)]

/-- Settles O26: both comparisons say that each bit from `8 - CS` up is equal. -/
theorem compareUsesTheTopBitsOnly : Obligations.CompareUsesTheTopBitsOnly := by
  unfold Obligations.CompareUsesTheTopBitsOnly
  intro cs x y _ _
  exact ⟨checksumAgrees_iff,
    checksumAgrees_iff.trans ((and_csmask_eq_iff cs x y).trans (ushiftRight_eq_iff x y (8 - cs.toNat)).symm)⟩

/-! ### `CSAPP` (R143) -/

/-- Settles O27: in another mode the check of `CSAPP` fails; in `ENC_LOAD` its effect writes the one byte at `EB`. -/
theorem csappAppendsTheChecksumByte : Obligations.CsappAppendsTheChecksumByte := by
  unfold Obligations.CsappAppendsTheChecksumByte
  refine ⟨commandWords_of_decode decode_op3, fun s wf => ⟨fun other => ?_, fun loading high => ?_⟩⟩
  · exact exec_of_ownError (check_eq_some.mpr ⟨other, rfl⟩)
  · exact ⟨effect .csapp s, exec_of_passed (check_eq_none.mpr loading) (Nat.lt_succ_of_le high), rfl, rfl, rfl,
      fun a => Memory.read_write wf s.eb a _, toNat_ofNat_of_lt (by unfold State.eb; omega), rfl, rfl, rfl⟩

/-! ### `CSVFY` (R145) -/

/-- `AUX` is the data word of R145. -/
theorem aux_eq_shiftLeft_or (s : State) : s.aux = s.obs.setWidth 32 <<< 8 ||| s.csb.setWidth 32 := by
  apply BitVec.eq_of_toNat_eq
  have csb : s.csb.toNat < 2 ^ 8 := s.csb.isLt
  have shifted : (s.obs.setWidth 32 <<< 8).toNat = s.obs.toNat <<< 8 := by
    rw [BitVec.toNat_shiftLeft, BitVec.toNat_setWidth_of_le (by decide), Nat.shiftLeft_eq]
    omega
  rw [toNat_aux, BitVec.toNat_or, shifted, BitVec.toNat_setWidth_of_le (by decide),
    ← Nat.shiftLeft_add_eq_or_of_lt csb, Nat.shiftLeft_eq, Nat.add_comm]

theorem verdict_of_csok {d : Config.Digest} (agrees : (csvfyCheck d s).csok = true) : verdict d s = .ok :=
  if_pos agrees

theorem verdict_of_not_csok {d : Config.Digest} (differs : (csvfyCheck d s).csok = false) :
    verdict d s = .invalidChecksum :=
  if_neg (Bool.eq_false_iff.mp differs)

/-- Settles O28: in another mode the check of `CSVFY` fails; in `DEC` its effect is `csvfyCheck`, and the verdict follows
`CSOK`. -/
theorem csvfyComparesAndZeroes : Obligations.CsvfyComparesAndZeroes := by
  unfold Obligations.CsvfyComparesAndZeroes
  refine ⟨commandWords_of_decode decode_op4, fun s => ⟨fun other => ?_, fun decoding low high => ?_⟩⟩
  · exact exec_of_ownError (check_eq_some.mpr ⟨other, rfl⟩)
  · refine ⟨effect .csvfy s, exec_of_passed (check_eq_none.mpr decoding) ⟨low, high⟩, rfl, rfl, rfl, rfl,
      checksumAgrees_iff, rfl, Memory.read_zeroed, rfl, fun agrees => ?_, fun differs => ?_, rfl⟩
    · have ok : verdict (Config.sha256 s.message) s = .ok := verdict_of_csok agrees
      simp only [effect, ok, State.latch_err, aux_eq_shiftLeft_or]
      exact ⟨ite_eq_right_iff.mpr Eq.symm, rfl⟩
    · have bad : verdict (Config.sha256 s.message) s = .invalidChecksum := verdict_of_not_csok differs
      simp only [effect, bad, State.latch_err, aux_eq_shiftLeft_or]
      exact ⟨rfl, rfl⟩

/-! ### The hash request (R140; 10_state.md R40, R44) -/

/-- From a clear port, an exchange stands there only after `CSAPP` in `ENC_LOAD` or `CSVFY` in `DEC`, and it is that of
the message. -/
theorem exec_hash (clear : s.hash = none) {x : HashExchange} (run : exec i s = .next t) (made : t.hash = some x) :
    (i = .csapp ∧ s.mode = .encLoad ∨ i = .csvfy ∧ s.mode = .dec) ∧ x = ⟨s.message, Config.sha256 s.message⟩ := by
  have absent : s.hash ≠ some x := by simp [clear]
  rcases exec_next_iff.mp run with ⟨c, -, rfl⟩ | ⟨passed, -, rfl⟩
  · exact absurd made absent
  · cases i with
    | csapp => exact ⟨.inl ⟨rfl, check_eq_none.mp passed⟩, (Option.some.inj made).symm⟩
    | csvfy => exact ⟨.inr ⟨rfl, check_eq_none.mp passed⟩, (Option.some.inj made).symm⟩
    | _ => exact absurd made absent

/-- A command word's step clears the port first, so the exchange there after it is the command's own. -/
theorem step_hash {w : Word} {rest : List HostMove} {x : HashExchange} (host : s.host = .command w :: rest)
    (run : step s = .next t) (made : t.hash = some x) :
    (decode w = .ok .csapp ∧ s.mode = .encLoad ∨ decode w = .ok .csvfy ∧ s.mode = .dec) ∧
      x = ⟨s.message, Config.sha256 s.message⟩ := by
  rw [step_command host] at run
  cases dec : decode w with
  | error e =>
    rw [runCommand_of_illegal dec] at run
    cases run
    exact absurd made nofun
  | ok i =>
    rw [runCommand_of_decode dec] at run
    obtain ⟨request, own⟩ := exec_hash rfl run made
    rcases request with ⟨rfl, loading⟩ | ⟨rfl, decoding⟩
    · exact ⟨.inl ⟨rfl, loading⟩, own⟩
    · exact ⟨.inr ⟨rfl, decoding⟩, own⟩

theorem length_message (s : State) : s.message.length = 4 * s.cs.toNat :=
  (List.length_map _).trans List.length_range

theorem four_mul_mem_legalEntropyBytes {c : Nat} (low : 4 ≤ c) (high : c ≤ 8) : 4 * c ∈ legalEntropyBytes := by
  simp only [legalEntropyBytes, List.mem_cons, List.not_mem_nil, or_false]
  omega

theorem shaReqLen_of_hash {x : HashExchange} (made : s.hash = some x) : s.shaReqLen = BitVec.ofNat 6 x.msg.length := by
  rw [State.shaReqLen, made]
  rfl

theorem shaReqMsg_of_hash {x : HashExchange} (made : s.hash = some x) : s.shaReqMsg = busOf x.msg := by
  rw [State.shaReqMsg, made]
  rfl

/-- Putting a byte below 31 others: its 8 bits are the lowest, and the others' move up by 8. -/
theorem extractLsb'_push_byte (acc : BitVec 256) (b : Byte) {k : Nat} (room : 8 * k < 256) :
    (acc <<< 8 ||| b.setWidth 256).extractLsb' (8 * k) 8 = if k = 0 then b else acc.extractLsb' (8 * (k - 1)) 8 := by
  refine BitVec.eq_of_getLsbD_eq fun j hj => ?_
  rw [BitVec.getLsbD_extractLsb', BitVec.getLsbD_or, BitVec.getLsbD_shiftLeft, BitVec.getLsbD_setWidth]
  have inside : 8 * k + j < 256 := by omega
  by_cases first : k = 0
  · subst first
    rw [Nat.mul_zero, Nat.zero_add] at inside ⊢
    simp [hj, inside]
  · have low : ¬8 * k + j < 8 := by omega
    have above : b.getLsbD (8 * k + j) = false := BitVec.getLsbD_of_ge _ _ (Nat.le_of_not_lt low)
    have back : 8 * k + j - 8 = 8 * (k - 1) + j := by omega
    simp [first, hj, inside, low, above, back]

/-- Of `n` bytes pushed in turn, the one numbered `i` has `n - 1 - i` pushed after it and stands that many bytes up. -/
theorem extractLsb'_foldl_push (f : Nat → Byte) {n : Nat} (room : n ≤ 32) {i : Nat} (hi : i < n) :
    ((List.range n).foldl (fun (acc : BitVec 256) i => acc <<< 8 ||| (f i).setWidth 256) 0).extractLsb'
      (8 * (n - 1 - i)) 8 = f i := by
  induction n with
  | zero => omega
  | succ n ih =>
    rw [List.range_succ, List.foldl_append, List.foldl_cons, List.foldl_nil, extractLsb'_push_byte _ _ (by omega)]
    by_cases last : i = n
    · rw [if_pos (by omega), last]
    · rw [if_neg (by omega), show n + 1 - 1 - i - 1 = n - 1 - i by omega]
      exact ih (by omega) (by omega)

/-- Byte `i` of a 256-bit port stands in bits `255-8i : 248-8i`, an absent byte as 0. -/
theorem extractLsb'_busOf (bs : List Byte) {i : Nat} (hi : i < 32) :
    (busOf bs).extractLsb' (248 - 8 * i) 8 = bs[i]?.getD 0 := by
  rw [show 248 - 8 * i = 8 * (32 - 1 - i) by omega]
  exact extractLsb'_foldl_push (fun i => bs[i]?.getD 0) le_rfl hi

/-- Settles O29: the request is that of `step_hash`, in a mode whose configuration bounds the message, and the port shows
its length and bytes. -/
theorem hashRequestIsTheEntropy : Obligations.HashRequestIsTheEntropy := by
  unfold Obligations.HashRequestIsTheEntropy
  intro s t w rest x h host run made
  obtain ⟨request, rfl⟩ := step_hash host run made
  have flow : s.mode ≠ .idle := by
    rcases request with ⟨-, loading⟩ | ⟨-, decoding⟩
    · simp [loading]
    · simp [decoding]
  obtain ⟨low, high, -⟩ := h.configuredFor flow
  have length := length_message s
  refine ⟨request, rfl, length ▸ four_mul_mem_legalEntropyBytes low high, rfl, ?_, fun i hi => ?_⟩
  · rw [shaReqLen_of_hash made]
    exact toNat_ofNat_of_lt (show s.message.length < 64 by omega)
  · rw [shaReqMsg_of_hash made]
    exact extractLsb'_busOf s.message hi

end Sys2Proof.Machine
end

section
/-! PROOFS. The commands `CFGE` and `UNPK` (42_encoder.md R160, R163), and where the checksum byte stands in the words
(R166 (b)): its first bit is bit `32*CS` of the buffer, which is bit `CS - 1` of the last word. -/

namespace Sys2Proof.Machine

/-! ### `CFGE` (R160 to R162) -/

theorem exists_of_mem_legalEntropyBytes {n : Nat} (legal : n ∈ legalEntropyBytes) : ∃ c, 4 ≤ c ∧ c ≤ 8 ∧ n = 4 * c := by
  simp only [legalEntropyBytes, List.mem_cons, List.not_mem_nil, or_false] at legal
  exact ⟨n / 4, by omega, by omega, by omega⟩

theorem entropyError_eq_none_of_legal {n : Nat} (legal : n ∈ legalEntropyBytes) : entropyError n = none := by
  obtain ⟨c, low, high, rfl⟩ := exists_of_mem_legalEntropyBytes legal
  rw [entropyError, encEnt_four_mul, if_neg (Nat.not_lt.mpr (Nat.mul_le_mul_left 32 low)),
    if_neg (Nat.not_lt.mpr (Nat.mul_le_mul_left 32 high)), if_neg (not_not_intro (Nat.mul_mod_right 32 c))]

/-- A legal length's configuration fits its registers. -/
theorem effect_cfge_of_legal {n : Nat} (legal : n ∈ legalEntropyBytes) (s : State) :
    (effect (.cfge n) s).cs.toNat = encCs n ∧ (effect (.cfge n) s).ms.toNat = encMs n ∧
      (effect (.cfge n) s).len.toNat = n := by
  obtain ⟨c, low, high, rfl⟩ := exists_of_mem_legalEntropyBytes legal
  have cs : encCs (4 * c) = c := encCs_four_mul c
  have ms : encMs (4 * c) = 3 * c := encMs_four_mul c
  exact ⟨toNat_ofNat_of_lt (by omega), toNat_ofNat_of_lt (by omega), toNat_ofNat_of_lt (by omega)⟩

/-- Settles O31: each error is the first whose condition holds, and a legal length has none. -/
theorem cfgeConfiguresTheEncoder : Obligations.CfgeConfiguresTheEncoder := by
  unfold Obligations.CfgeConfiguresTheEncoder
  refine ⟨commandWords_of_decode decode_op5, fun n s =>
    ⟨fun low => ?_, fun high => ?_, fun low high unaligned => ?_, fun legal => ?_⟩⟩
  · exact exec_of_ownError (if_pos low)
  · have notLow : ¬8 * n < 128 := by omega
    exact exec_of_ownError ((if_neg notLow).trans (if_pos high))
  · exact exec_of_ownError
      ((if_neg (Nat.not_lt.mpr low)).trans ((if_neg (Nat.not_lt.mpr high)).trans (if_pos unaligned)))
  · obtain ⟨cs, ms, len⟩ := effect_cfge_of_legal legal s
    exact ⟨effect (.cfge n) s, exec_of_passed (entropyError_eq_none_of_legal legal) trivial, cs, ms, len, rfl, rfl, rfl⟩

/-! ### `UNPK` (R163) -/

/-- Settles O32: in another mode the check of `UNPK` fails; in `ENC_READY` its effect is the two loops. -/
theorem unpkExtractsTheWords : Obligations.UnpkExtractsTheWords := by
  unfold Obligations.UnpkExtractsTheWords
  refine ⟨commandWords_of_decode decode_op6, fun s => ⟨fun other => ?_, fun ready len words fit => ?_⟩⟩
  · exact exec_of_ownError (check_eq_some.mpr ⟨other, rfl⟩)
  · refine ⟨effect .unpk s, exec_of_passed (check_eq_none.mpr ready) ⟨len, words⟩, fun wi hwi j hj => ?_,
      fun wi above exist => ?_, Memory.read_zeroed, rfl, rfl, rfl⟩
    · have field : idxGet s.unpacked wi = s.read11 (11 * wi) := (idxGet_unpacked words (by omega)).trans (if_pos hwi)
      exact (congrArg (BitVec.getLsbD · j) field).trans (getLsbD_read11 (by omega) (Nat.lt_succ_of_le hj))
    · exact (idxGet_unpacked words exist).trans (if_neg (Nat.not_lt.mpr above))

/-! ### The checksum byte in the words (R166 (b)) -/

theorem bit_write {m : Memory} (wf : m.wf) (a : Nat) (v : Byte) (o : Nat) :
    (m.write a v).bit o = if o / 8 = a then v.getLsbD (7 - o % 8) else m.bit o := by
  rw [Memory.bit, Memory.read_write wf]
  by_cases here : o / 8 = a
  · rw [if_pos here, if_pos here]
  · rw [if_neg here, if_neg here, Memory.bit]

/-- A bit of the words after `CSAPP`: one of the entropy's below bit `8*EB`, and one of the digest's first byte from
there on. -/
theorem getLsbD_read11_csappEffect {s t : State} {d : Config.Digest} (h : s.Inv) (loading : s.mode = .encLoad)
    (run : csappEffect d s = .next t) {wi j : Nat} (hwi : wi < 3 * s.cs.toNat) (hj : j < 11) :
    (t.read11 (11 * wi)).getLsbD j =
      if 32 * s.cs.toNat ≤ 11 * wi + 10 - j then d[0].getLsbD (7 - (11 * wi + 10 - j) % 8)
      else s.buf.bit (11 * wi + 10 - j) := by
  obtain ⟨low, high, -⟩ := h.configuredFor (by simp [loading])
  rw [csappEffect_eq] at run
  cases run
  have len : (BitVec.ofNat 6 (s.eb + 1)).toNat = 4 * s.cs.toNat + 1 := toNat_ofNat_of_lt (by unfold State.eb; omega)
  have inByte : (11 * wi + 10 - j) / 8 = s.eb ↔ 32 * s.cs.toNat ≤ 11 * wi + 10 - j := by
    unfold State.eb
    omega
  rw [State.read11, getLsbD_read11 (by rw [len]; omega) hj, bit_write h.1]
  simp only [inByte]

/-- Settles O33: every bit of an earlier word, and every bit of the last word but its low `CS`, stands before bit
`8*EB`. -/
theorem wordsDependOnTheEntropyAlone : Obligations.WordsDependOnTheEntropyAlone := by
  unfold Obligations.WordsDependOnTheEntropyAlone
  intro s t t' d d' h loading run run'
  obtain ⟨low, high, -, words, -⟩ := h.configuredFor (by simp [loading])
  rw [words]
  have same : ∀ wi j, wi < 3 * s.cs.toNat → j < 11 → 11 * wi + 10 - j < 32 * s.cs.toNat →
      (t.read11 (11 * wi)).getLsbD j = (t'.read11 (11 * wi)).getLsbD j := by
    intro wi j hwi hj before
    rw [getLsbD_read11_csappEffect h loading run hwi hj, getLsbD_read11_csappEffect h loading run' hwi hj,
      if_neg (Nat.not_le.mpr before), if_neg (Nat.not_le.mpr before)]
  refine ⟨fun wi hwi => ?_, ?_, ?_⟩
  · exact BitVec.eq_of_getLsbD_eq fun j hj => same wi j (by omega) hj (by omega)
  · refine BitVec.eq_of_getLsbD_eq fun j _ => ?_
    rw [BitVec.getLsbD_ushiftRight, BitVec.getLsbD_ushiftRight]
    by_cases inWord : s.cs.toNat + j < 11
    · exact same _ _ (by omega) inWord (by omega)
    · rw [BitVec.getLsbD_of_ge _ _ (Nat.le_of_not_lt inWord), BitVec.getLsbD_of_ge _ _ (Nat.le_of_not_lt inWord)]
  · refine Nat.eq_of_testBit_eq fun j => ?_
    rw [Nat.testBit_mod_two_pow, Nat.testBit_div_two_pow, BitVec.testBit_toNat, BitVec.testBit_toNat]
    by_cases inByte : j < s.cs.toNat
    · have place : 7 - (11 * (3 * s.cs.toNat - 1) + 10 - j) % 8 = j + (8 - s.cs.toNat) := by omega
      rw [decide_eq_true inByte, Bool.true_and,
        getLsbD_read11_csappEffect h loading run (by omega) (by omega), if_pos (by omega), place]
    · rw [decide_eq_false inByte, Bool.false_and, BitVec.getLsbD_of_ge _ _ (by omega)]

end Sys2Proof.Machine
end

section
/-! PROOFS. The commands of a flow, one after another (30_encoding.md R101): a command whose check passes hands its effect
on to the rest, and the stores of a flow leave the bytes or the registers listed. -/

namespace Sys2Proof.Machine

variable {i : Instr} {s t : State}

/-! ### One command of a flow -/

/-- What the block leaves when the host issues a command whose check passes. -/
def issued (i : Instr) (s : State) : State := effect i (s.accept s.host)

theorem ownError_accept (rest : List HostMove) : ownError i (s.accept rest) = ownError i s := by
  cases i <;> rfl

theorem issue_of_passed (fits : WellFormed i) (h : s.Inv) (passed : ownError i s = none) :
    issue i s = .next (issued i s) := by
  have accepted : (s.accept s.host).Inv := h
  rw [issue_eq (decodeOfEncode i fits)]
  exact exec_of_inv accepted ((ownError_accept s.host).trans passed)

theorem issued_inv (h : s.Inv) (passed : ownError i s = none) : (issued i s).Inv := by
  have accepted : (s.accept s.host).Inv := h
  exact effect_inv accepted ((ownError_accept s.host).trans passed)

/-- A command other than `CSVFY` whose check passes answers `OK`. -/
theorem answeredOk_issued (other : i ≠ .csvfy) : (issued i s).answeredOk = true := by
  cases i with
  | csvfy => exact absurd rfl other
  | _ => rfl

/-- A command of a flow hands its effect on. -/
theorem runFlow_cons_of_passed (fits : WellFormed i) (other : i ≠ .csvfy) (h : s.Inv) (passed : ownError i s = none)
    (rest : List Instr) : runFlow (i :: rest) s = runFlow rest (issued i s) :=
  runFlow_cons_ok (issue_of_passed fits h passed) (answeredOk_issued other)

/-- The invariants ask nothing of what stands at the ports. -/
theorem State.Inv.of_sameBlock (h : s.Inv) (same : t.sameBlock s) : t.Inv := by
  rw [same]
  exact h

/-! ### Bytes stored one after another -/

/-- An entry of a list laid out from `i + 1` on, after its head at `i`. -/
theorem ite_getD_cons {α : Type} (v d old : α) (vs : List α) (i a : Nat) :
    (if i + 1 ≤ a ∧ a < i + 1 + vs.length then vs[a - (i + 1)]?.getD d else if a = i then v else old) =
      if i ≤ a ∧ a < i + (vs.length + 1) then (v :: vs)[a - i]?.getD d else old := by
  by_cases first : a = i
  · subst first
    simp
  · by_cases later : i + 1 ≤ a ∧ a < i + 1 + vs.length
    · have inside : i ≤ a ∧ a < i + (vs.length + 1) := by omega
      have next : a - i = a - (i + 1) + 1 := by omega
      rw [if_pos later, if_pos inside, next, List.getElem?_cons_succ]
    · have outside : ¬(i ≤ a ∧ a < i + (vs.length + 1)) := by omega
      rw [if_neg later, if_neg outside, if_neg first]

/-- The buffer after the bytes of a list are stored from address `i` on. -/
def storeBytes (m : Memory) (i : Nat) : List Byte → Memory
  | [] => m
  | b :: bs => storeBytes (m.write i b) (i + 1) bs

theorem storeBytes_wf {m : Memory} (wf : m.wf) {i : Nat} {bs : List Byte} (exist : i + bs.length ≤ 33) :
    (storeBytes m i bs).wf := by
  induction bs generalizing m i with
  | nil => exact wf
  | cons b bs ih =>
    rw [List.length_cons] at exist
    exact ih (Memory.write_wf wf (by omega) b) (by omega)

/-- A byte after the stores: the list's, or as before. -/
theorem read_storeBytes {m : Memory} (wf : m.wf) {i : Nat} {bs : List Byte} (exist : i + bs.length ≤ 33) (a : Nat) :
    (storeBytes m i bs).read a = if i ≤ a ∧ a < i + bs.length then bs[a - i]?.getD 0 else m.read a := by
  induction bs generalizing m i with
  | nil => exact (if_neg (by simp)).symm
  | cons b bs ih =>
    rw [List.length_cons] at exist ⊢
    rw [storeBytes, ih (Memory.write_wf wf (by omega) b) (by omega), Memory.read_write wf,
      ite_getD_cons]

/-- Stores below `LEN` hand on the buffer with their bytes, and nothing else changed. -/
theorem runFlow_putBytes (h : s.Inv) {i : Nat} {bs : List Byte} (fit : i + bs.length ≤ s.len.toNat) (rest : List Instr) :
    ∃ t, runFlow (putBytes i bs ++ rest) s = runFlow rest t ∧
      t.sameBlock { s with buf := storeBytes s.buf i bs } := by
  induction bs generalizing s i with
  | nil => exact ⟨s, rfl, rfl⟩
  | cons b bs ih =>
    rw [List.length_cons] at fit
    obtain ⟨wf, len, -⟩ := id h
    have passed : ownError (.putb i b) s = none := check_eq_none.mpr (by omega)
    have fits : WellFormed (.putb i b) := by
      show i < 64
      omega
    obtain ⟨t, run, same⟩ := ih (issued_inv h passed) (i := i + 1) (show i + 1 + bs.length ≤ s.len.toNat by omega)
    refine ⟨t, ?_, same⟩
    rw [putBytes, List.cons_append, runFlow_cons_of_passed fits nofun h passed, run]

/-! ### Registers stored one after another -/

/-- The index file after the indices of a list are stored from register `i` on. -/
def storeIndices (x : IndexFile) (i : Nat) : List Index → IndexFile
  | [] => x
  | v :: vs => storeIndices (idxPut x i v) (i + 1) vs

/-- A register after the stores: the list's, or as before. -/
theorem idxGet_storeIndices {x : IndexFile} {i : Nat} {vs : List Index} (exist : i + vs.length ≤ 24) (j : Nat) :
    idxGet (storeIndices x i vs) j = if i ≤ j ∧ j < i + vs.length then vs[j - i]?.getD 0 else idxGet x j := by
  induction vs generalizing x i with
  | nil => exact (if_neg (by simp)).symm
  | cons v vs ih =>
    rw [List.length_cons] at exist ⊢
    rw [storeIndices, ih (by omega), idxGet_idxPut _ _ _ _ (by omega), ite_getD_cons]

/-- Stores to registers that exist hand on the index file with their indices, and nothing else changed. -/
theorem runFlow_putIndices (h : s.Inv) {i : Nat} {vs : List Index} (exist : i + vs.length ≤ 24) (rest : List Instr) :
    ∃ t, runFlow (putIndices i vs ++ rest) s = runFlow rest t ∧
      t.sameBlock { s with idx := storeIndices s.idx i vs } := by
  induction vs generalizing s i with
  | nil => exact ⟨s, rfl, rfl⟩
  | cons v vs ih =>
    rw [List.length_cons] at exist
    have passed : ownError (.puti i v) s = none := check_eq_none.mpr (show i < 24 by omega)
    have fits : WellFormed (.puti i v) := by
      show i < 32
      omega
    obtain ⟨t, run, same⟩ := ih (issued_inv h passed) (i := i + 1) (by omega)
    refine ⟨t, ?_, same⟩
    rw [putIndices, List.cons_append, runFlow_cons_of_passed fits nofun h passed, run]

end Sys2Proof.Machine
end

section
/-! PROOFS. The flow `ENCODE` (30_encoding.md R101; 42_encoder.md R166 (a)): it loads the entropy, appends the checksum
byte and takes the words out of the bytes that then stand below `LEN`. -/

namespace Sys2Proof.Machine

variable {s t u : State} {bs : List Byte}

/-- The checksummed entropy: the bytes of the entropy and after them its checksum byte (41_checksum.md R143, R144). -/
def checksummed (bs : List Byte) : Memory := storeBytes Memory.zeroed 0 (bs ++ [(Config.sha256 bs)[0]])

theorem read_checksummed (exist : bs.length ≤ 32) (a : Nat) :
    (checksummed bs).read a =
      if a < bs.length then bs[a]?.getD 0 else if a = bs.length then (Config.sha256 bs)[0] else 0 := by
  rw [checksummed, read_storeBytes Memory.zeroed_wf (by simpa [Nat.lt_succ_iff] using exist)]
  by_cases entropy : a < bs.length
  · have inside : a < bs.length + 1 := by omega
    simp [entropy, inside]
  · by_cases checksum : a = bs.length
    · simp [checksum]
    · have outside : ¬a < bs.length + 1 := by omega
      simp [entropy, checksum, outside]

/-- The hash message is a list when its length is the list's and `BUF` holds the list. -/
theorem message_eq (length : s.eb = bs.length) (holds : ∀ a < bs.length, s.buf.read a = bs[a]?.getD 0) :
    s.message = bs := by
  have same : s.message.length = bs.length := by rw [length_message, ← length, State.eb]
  refine List.ext_getElem same fun a ha ha' => ?_
  simp [State.message, holds a ha', ha']

/-! ### Loading the entropy -/

/-- After `CFGE` and the stores, `BUF` holds the entropy below `LEN`, ready for `CSAPP`. -/
theorem runFlow_encodeFlow_load (legal : bs.length ∈ legalEntropyBytes) (h : s.Inv) :
    ∃ u, runFlow (encodeFlow bs) s = runFlow [.csapp, .unpk] u ∧ u.Inv ∧ u.mode = .encLoad ∧
      u.len.toNat = bs.length ∧ ∀ a < bs.length, u.buf.read a = bs[a]?.getD 0 := by
  obtain ⟨c, low, high, length⟩ := exists_of_mem_legalEntropyBytes legal
  have passed : ownError (.cfge bs.length) s = none := entropyError_eq_none_of_legal legal
  have fits : WellFormed (.cfge bs.length) := by
    show bs.length < 64
    omega
  have configured : (issued (.cfge bs.length) s).len.toNat = bs.length :=
    (effect_cfge_of_legal legal (s.accept s.host)).2.2
  have inv := issued_inv h passed
  have exist : 0 + bs.length ≤ 33 := by omega
  obtain ⟨u, run, same⟩ := runFlow_putBytes inv (i := 0) (bs := bs) (by omega) [.csapp, .unpk]
  refine ⟨u, ?_, (inv.withBuf (storeBytes_wf inv.1 exist)).of_sameBlock same, ?_, ?_, fun a ha => ?_⟩
  · rw [encodeFlow, List.cons_append, runFlow_cons_of_passed fits nofun h passed, run]
  · rw [same]
    rfl
  · rw [same]
    exact configured
  · have inside : 0 ≤ a ∧ a < 0 + bs.length := by omega
    rw [same]
    exact (read_storeBytes inv.1 exist a).trans (if_pos inside)

/-! ### Appending the checksum byte -/

/-- After `CSAPP`, `BUF` holds the checksummed entropy below `LEN`, ready for `UNPK`. -/
theorem issued_csapp (h : u.Inv) (loading : u.mode = .encLoad) (len : u.len.toNat = bs.length)
    (holds : ∀ a < bs.length, u.buf.read a = bs[a]?.getD 0) :
    (issued .csapp u).mode = .encReady ∧ (issued .csapp u).len.toNat = bs.length + 1 ∧
      ∀ a < bs.length + 1, (issued .csapp u).buf.read a = (checksummed bs).read a := by
  have length : u.eb = bs.length := (eb_eq_len_of_encLoad h loading).trans len
  have exist : bs.length ≤ 32 := by
    obtain ⟨-, high, -⟩ := h.configuredFor (by simp [loading])
    unfold State.eb at length
    omega
  have message : (u.accept u.host).message = bs := message_eq length holds
  refine ⟨rfl, (toNat_ofNat_of_lt (show u.eb + 1 < 64 by omega)).trans (congrArg (· + 1) length), fun a ha => ?_⟩
  have written : (issued .csapp u).buf = u.buf.write bs.length (Config.sha256 bs)[0] := by
    rw [← length]
    simp only [issued, effect, message]
    rfl
  rw [written, Memory.read_write h.1, read_checksummed exist]
  by_cases checksum : a = bs.length
  · simp [checksum]
  · have entropy : a < bs.length := by omega
    rw [if_neg checksum, if_pos entropy, holds a entropy]

/-! ### Taking the words out -/

/-- What `ENCODE` of a legal entropy leaves: the words are the fields of the checksummed entropy. -/
theorem runFlow_encodeFlow {c : Nat} (low : 4 ≤ c) (high : c ≤ 8) (length : bs.length = 4 * c) (h : s.Inv) :
    ∃ t, runFlow (encodeFlow bs) s = .next t ∧ t.Inv ∧ t.mode = .idle ∧ t.buf = Memory.zeroed ∧ t.ms.toNat = 3 * c ∧
      t.rsp = some ⟨.ok, t.ms.setWidth 32⟩ ∧
      ∀ wi < 24, idxGet t.idx wi = if wi < 3 * c then (checksummed bs).read11 (4 * c + 1) (11 * wi) else 0 := by
  obtain ⟨u, run, inv, loading, len, holds⟩ :=
    runFlow_encodeFlow_load (length ▸ four_mul_mem_legalEntropyBytes low high) h
  have loaded : ownError .csapp u = none := check_eq_none.mpr loading
  obtain ⟨ready, len', holds'⟩ := issued_csapp inv loading len holds
  have inv' := issued_inv inv loaded
  have appended : ownError .unpk (issued .csapp u) = none := check_eq_none.mpr ready
  obtain ⟨-, -, -, words, -⟩ := inv.configuredFor (by simp [loading])
  have words' : (issued .csapp u).ms.toNat = 3 * c := by
    have eb : u.eb = u.len.toNat := eb_eq_len_of_encLoad inv loading
    unfold State.eb at eb
    show u.ms.toNat = 3 * c
    omega
  refine ⟨issued .unpk (issued .csapp u), ?_, issued_inv inv' appended, rfl, rfl, words', rfl, fun wi hwi => ?_⟩
  · rw [run, runFlow_cons_of_passed (i := .csapp) trivial nofun inv loaded,
      runFlow_cons_of_passed (i := .unpk) trivial nofun inv' appended, runFlow]
  · have field : (issued .csapp u).read11 (11 * wi) = (checksummed bs).read11 (4 * c + 1) (11 * wi) := by
      rw [State.read11, len', length]
      exact read11_congr (length ▸ holds') (11 * wi)
    have taken := idxGet_unpacked (s := issued .csapp u) (by omega) hwi
    rw [words', field] at taken
    exact taken

/-- Settles O53: from any two states `ENCODE` leaves the fields of the one checksummed entropy. -/
theorem encodeIsAFunctionOfTheEntropy : Obligations.EncodeIsAFunctionOfTheEntropy := by
  unfold Obligations.EncodeIsAFunctionOfTheEntropy
  intro bs s s' legal h h'
  obtain ⟨c, low, high, length⟩ := exists_of_mem_legalEntropyBytes legal
  obtain ⟨t, run, inv, mode, buf, ms, rsp, words⟩ := runFlow_encodeFlow low high length h
  obtain ⟨t', run', -, -, -, ms', rsp', words'⟩ := runFlow_encodeFlow low high length h'
  have count : 3 * bs.length / 4 = 3 * c := by omega
  have sameIdx : t'.idx = t.idx := IndexFile.ext_of_idxGet fun wi hwi => (words' wi hwi).trans (words wi hwi).symm
  have sameMs : t'.ms = t.ms := BitVec.eq_of_toNat_eq (ms'.trans ms.symm)
  have answer : t.ms.setWidth 32 = BitVec.ofNat 32 (3 * bs.length / 4) := by
    rw [count, ← ms, BitVec.ofNat_toNat]
  refine ⟨t, t', run, run', sameIdx, answer ▸ rsp, by rw [rsp', rsp, sameMs], mode, inv, fun a => ?_,
    fun wi above exist => ?_⟩
  · rw [buf, Memory.read_zeroed]
  · exact (words wi exist).trans (if_neg (by omega))

end Sys2Proof.Machine
end

section
/-! PROOFS. The flow `VALIDATE` (30_encoding.md R101; 43_decoder.md R185) up to `PACK`, bit by bit, and the round trip
(42_encoder.md R166 (c)): the words of the checksummed entropy, packed, give its first `33*CS` bits back. -/

namespace Sys2Proof.Machine

variable {s t u : State} {bs : List Byte} {vs : List Index} {c : Nat}

/-! ### `VALIDATE` up to `PACK` -/

theorem wordCountOk_three_mul (low : 4 ≤ c) (high : c ≤ 8) : wordCountOk (3 * c) := by
  rw [wordCountOk, decEntPlusCs_three_mul, decEnt_three_mul, decCs_three_mul]
  exact ⟨by omega, Nat.mul_le_mul_left 32 low, Nat.mul_le_mul_left 32 high⟩

/-- After `CFGD` and the stores, the first `MS` registers hold the words and `BUF` is 0, ready for `PACK`. -/
theorem runFlow_packFlow_load (low : 4 ≤ c) (high : c ≤ 8) (length : vs.length = 3 * c) (h : s.Inv) :
    ∃ u, runFlow (packFlow vs) s = runFlow [.pack] u ∧ u.Inv ∧ u.mode = .dec ∧ u.buf = Memory.zeroed ∧
      u.ms.toNat = 3 * c ∧ ∀ wi < 3 * c, idxGet u.idx wi = vs[wi]?.getD 0 := by
  have passed : ownError (.cfgd vs.length) s = none :=
    check_eq_none.mpr (length ▸ wordCountOk_three_mul low high)
  have fits : WellFormed (.cfgd vs.length) := by
    show vs.length < 64
    omega
  have inv := issued_inv h passed
  have configured : (issued (.cfgd vs.length) s).ms.toNat = vs.length := toNat_ofNat_of_lt (by omega)
  have exist : 0 + vs.length ≤ 24 := by omega
  obtain ⟨u, run, same⟩ := runFlow_putIndices inv exist [.pack]
  have inv' : { issued (.cfgd vs.length) s with idx := storeIndices (issued (.cfgd vs.length) s).idx 0 vs }.Inv := inv
  refine ⟨u, ?_, inv'.of_sameBlock same, ?_, ?_, ?_, fun wi hwi => ?_⟩
  · rw [packFlow, List.cons_append, runFlow_cons_of_passed fits nofun h passed, run]
  · rw [same]
    rfl
  · rw [same]
    rfl
  · rw [same]
    exact configured.trans length
  · have inside : 0 ≤ wi ∧ wi < 0 + vs.length := by omega
    rw [same]
    exact (idxGet_storeIndices exist wi).trans (if_pos inside)

/-- What `VALIDATE` of a legal word count leaves up to `PACK`: the words' bits one after another, and then zeros. -/
theorem runFlow_packFlow (low : 4 ≤ c) (high : c ≤ 8) (length : vs.length = 3 * c) (h : s.Inv) :
    ∃ u, runFlow (packFlow vs) s = .next u ∧ u.Inv ∧ u.mode = .dec ∧ u.rsp = some ⟨.ok, 0⟩ ∧ u.cs.toNat = c ∧
      ∀ o, u.buf.bit o = (decide (o < 33 * c) && (vs[o / 11]?.getD 0).getLsbD (10 - o % 11)) := by
  obtain ⟨u, run, inv, decoding, empty, words, stored⟩ := runFlow_packFlow_load low high length h
  have passed : ownError .pack u = none := check_eq_none.mpr decoding
  obtain ⟨-, -, -, ms, -⟩ := inv.configuredFor (by simp [decoding])
  refine ⟨issued .pack u, ?_, issued_inv inv passed, decoding, rfl, show u.cs.toNat = c by omega, fun o => ?_⟩
  · rw [run, runFlow_cons_of_passed (i := .pack) trivial nofun inv passed, runFlow]
  · have packed : (issued .pack u).buf = packLoop u.buf u.len.toNat u.idx u.ms.toNat := rfl
    have total : 11 * u.ms.toNat = 33 * c := by omega
    rw [packed, bit_packLoop inv.1 inv.2.1 u.idx (words_fit_of_dec inv decoding), total, empty, Memory.bit_zeroed,
      Bool.false_or]
    by_cases inWords : o < 33 * c
    · rw [stored (o / 11) (by omega)]
    · rw [decide_eq_false inWords, Bool.false_and, Bool.false_and]

/-- A flow `VALIDATE` whose words are packed ends with what `CSVFY` leaves. -/
theorem runFlow_validateFlow (run : runFlow (packFlow vs) s = .next u) (ok : u.answeredOk = true) (h : u.Inv)
    (decoding : u.mode = .dec) : runFlow (validateFlow vs) s = .next (issued .csvfy u) := by
  have verify : issue .csvfy u = .next (issued .csvfy u) :=
    issue_of_passed (i := .csvfy) trivial h (check_eq_none.mpr decoding)
  rw [validateFlow, runFlow_append run ok, runFlow_cons verify]
  exact ite_self _

/-! ### The words of the checksummed entropy, packed -/

theorem getD_take_toList (x : IndexFile) {n wi : Nat} (hwi : wi < n) :
    (x.toList.take n)[wi]?.getD 0 = idxGet x wi := by
  rw [List.getElem?_take_of_lt hwi, Vector.getElem?_toList, idxGet]

/-- A bit of registers that hold a buffer's fields is the buffer's. -/
theorem getLsbD_take_toList_of_fields {m : Memory} {len n : Nat} {x : IndexFile}
    (words : ∀ wi < n, idxGet x wi = m.read11 len (11 * wi)) (fit : 11 * n ≤ 8 * len) {o : Nat} (ho : o < 11 * n) :
    ((x.toList.take n)[o / 11]?.getD 0).getLsbD (10 - o % 11) = m.bit o := by
  have inside : o / 11 < n := by omega
  have place : 11 * (o / 11) + 10 - (10 - o % 11) = o := by omega
  rw [getD_take_toList x inside, words _ inside, getLsbD_read11 (by omega) (by omega), place]

/-- The bytes of a buffer that holds the first `33*c` bits of another: below byte `4*c` they are all there, and of byte
`4*c` the top `c` bits. -/
theorem read_of_leading_bits {m m' : Memory} (low : 4 ≤ c) (high : c ≤ 8)
    (bits : ∀ o, m.bit o = (decide (o < 33 * c) && m'.bit o)) :
    (∀ a < 4 * c, m.read a = m'.read a) ∧ m.read (4 * c) = m'.read (4 * c) &&& csmask (BitVec.ofNat 4 c) := by
  constructor
  · intro a ha
    refine read_eq_of_bits fun i hi => ?_
    rw [bits, decide_eq_true (by omega), Bool.true_and]
  · have cs : (BitVec.ofNat 4 c).toNat = c := toNat_ofNat_of_lt (by omega)
    refine BitVec.eq_of_getLsbD_eq fun j hj => ?_
    have bit := bits (8 * (4 * c) + (7 - j))
    have byte : (8 * (4 * c) + (7 - j)) / 8 = 4 * c := by omega
    have place : 7 - (8 * (4 * c) + (7 - j)) % 8 = j := by omega
    have top : 8 * (4 * c) + (7 - j) < 33 * c ↔ 8 - c ≤ j := by omega
    simp only [Memory.bit, byte, place, top] at bit
    rw [bit, BitVec.getLsbD_and, getLsbD_csmask _ hj, cs, Bool.and_comm]

/-- Packed again, the fields of the checksummed entropy give its bytes, the checksum byte cut to its top `CS` bits. -/
theorem runFlow_packFlow_of_fields (low : 4 ≤ c) (high : c ≤ 8) (length : bs.length = 4 * c) (h : t.Inv)
    (fields : ∀ wi < 3 * c, idxGet t.idx wi = (checksummed bs).read11 (4 * c + 1) (11 * wi)) :
    ∃ u, runFlow (packFlow (t.idx.toList.take (3 * c))) t = .next u ∧ u.Inv ∧ u.mode = .dec ∧ u.answeredOk = true ∧
      u.eb = bs.length ∧ (∀ a < bs.length, u.buf.read a = bs[a]?.getD 0) ∧
      u.buf.read bs.length = (Config.sha256 bs)[0] &&& csmask u.cs := by
  have count : (t.idx.toList.take (3 * c)).length = 3 * c := by
    rw [List.length_take, Vector.length_toList, Nat.min_eq_left (by unfold Config.idxWords; omega)]
  obtain ⟨u, run, inv, decoding, rsp, cs, bits⟩ := runFlow_packFlow low high count h
  have leadingBits : ∀ o, u.buf.bit o = (decide (o < 33 * c) && (checksummed bs).bit o) := by
    intro o
    rw [bits]
    by_cases inWords : o < 33 * c
    · rw [getLsbD_take_toList_of_fields fields (by omega) (by omega)]
    · rw [decide_eq_false inWords, Bool.false_and, Bool.false_and]
  obtain ⟨below, last⟩ := read_of_leading_bits low high leadingBits
  have exist : bs.length ≤ 32 := by omega
  have mask : BitVec.ofNat 4 c = u.cs := by rw [← cs, BitVec.ofNat_toNat, BitVec.setWidth_eq]
  rw [← length, read_checksummed exist, if_neg (Nat.lt_irrefl _), if_pos rfl, mask] at last
  have ok : u.answeredOk = true := by
    rw [State.answeredOk, rsp]
    rfl
  refine ⟨u, run, inv, decoding, ok, by rw [State.eb, cs, length], fun a ha => ?_, last⟩
  rw [below a (by omega), read_checksummed exist, if_pos ha]

/-! ### The verdict on them -/

/-- `CSVFY` accepts bytes that are followed by their own checksum byte, masked. -/
theorem issued_csvfy_of_masked (length : u.eb = bs.length) (holds : ∀ a < bs.length, u.buf.read a = bs[a]?.getD 0)
    (byte : u.buf.read bs.length = (Config.sha256 bs)[0] &&& csmask u.cs) :
    (issued .csvfy u).rsp.map Response.st = some .ok ∧ (issued .csvfy u).csok = true := by
  have message : (u.accept u.host).message = bs := message_eq length holds
  have agrees : checksumAgrees u.cs (Config.sha256 bs)[0] (u.buf.read u.eb) = true := by
    rw [checksumAgrees_iff, length, byte, BitVec.and_assoc, BitVec.and_self]
  have csok : (csvfyCheck (Config.sha256 (u.accept u.host).message) (u.accept u.host)).csok = true := by
    rw [message]
    exact agrees
  exact ⟨congrArg some (verdict_of_csok csok), csok⟩

/-- Settles O55: the words of `ENCODE` are fields of the checksummed entropy, and packed again they give all that `CSVFY`
compares. -/
theorem encodedWordsValidate : Obligations.EncodedWordsValidate := by
  unfold Obligations.EncodedWordsValidate
  intro bs s legal h
  obtain ⟨c, low, high, length⟩ := exists_of_mem_legalEntropyBytes legal
  obtain ⟨t, encoded, inv, -, -, ms, -, words⟩ := runFlow_encodeFlow low high length h
  have fields : ∀ wi < 3 * c, idxGet t.idx wi = (checksummed bs).read11 (4 * c + 1) (11 * wi) := fun wi hwi =>
    (words wi (by omega)).trans (if_pos hwi)
  obtain ⟨u, packed, inv', decoding, ok, eb, holds, byte⟩ := runFlow_packFlow_of_fields low high length inv fields
  obtain ⟨accepted, csok⟩ := issued_csvfy_of_masked eb holds byte
  refine ⟨t, u, issued .csvfy u, encoded, ?_⟩
  rw [ms]
  exact ⟨packed, holds, byte, runFlow_validateFlow packed ok inv' decoding, accepted, csok, rfl, Memory.read_zeroed⟩

end Sys2Proof.Machine
end

section
/-! PROOFS. The commands `CFGD` and `PACK` (43_decoder.md R180 to R184), each from its check and its effect. -/

namespace Sys2Proof.Machine

/-! ### `CFGD` (R180 to R182) -/

theorem exists_of_mem_legalWordCounts {ms : Nat} (legal : ms ∈ legalWordCounts) : ∃ c, 4 ≤ c ∧ c ≤ 8 ∧ ms = 3 * c := by
  simp only [legalWordCounts, List.mem_cons, List.not_mem_nil, or_false] at legal
  exact ⟨ms / 3, by omega, by omega, by omega⟩

theorem three_mul_mem_legalWordCounts {c : Nat} (low : 4 ≤ c) (high : c ≤ 8) : 3 * c ∈ legalWordCounts := by
  simp only [legalWordCounts, List.mem_cons, List.not_mem_nil, or_false]
  omega

/-- The word-count test passes for the legal word counts, those of 4 to 8 checksum bits. -/
theorem mem_legalWordCounts_iff {ms : Nat} : ms ∈ legalWordCounts ↔ wordCountOk ms := by
  constructor
  · intro legal
    obtain ⟨c, low, high, rfl⟩ := exists_of_mem_legalWordCounts legal
    exact wordCountOk_three_mul low high
  · intro ok
    obtain ⟨c, low, high, rfl⟩ := exists_of_wordCountOk ok
    exact three_mul_mem_legalWordCounts low high

/-- A legal word count's configuration fits its registers. -/
theorem effect_cfgd_of_legal {ms : Nat} (legal : ms ∈ legalWordCounts) (s : State) :
    (effect (.cfgd ms) s).cs.toNat = decCs ms ∧ (effect (.cfgd ms) s).ms.toNat = ms ∧
      (effect (.cfgd ms) s).len.toNat = decLen ms := by
  obtain ⟨c, low, high, rfl⟩ := exists_of_mem_legalWordCounts legal
  have cs : decCs (3 * c) = c := decCs_three_mul c
  have len : decLen (3 * c) = 4 * c + 1 := decLen_three_mul (by omega) high
  exact ⟨toNat_ofNat_of_lt (by omega), toNat_ofNat_of_lt (by omega), toNat_ofNat_of_lt (by omega)⟩

theorem ownError_cfgd_of_not_legal {ms : Nat} (illegal : ms ∉ legalWordCounts) (s : State) :
    ownError (.cfgd ms) s = some .invalidWordCount :=
  check_eq_some.mpr ⟨mem_legalWordCounts_iff.not.mp illegal, rfl⟩

/-- Settles O34: the check of `CFGD` is membership in the set, and its effect is the configuration. -/
theorem cfgdConfiguresTheDecoder : Obligations.CfgdConfiguresTheDecoder := by
  unfold Obligations.CfgdConfiguresTheDecoder
  refine ⟨commandWords_of_decode decode_op7, fun ms => mem_legalWordCounts_iff, fun ms s =>
    ⟨fun illegal => ?_, fun legal => ?_⟩⟩
  · exact exec_of_ownError (ownError_cfgd_of_not_legal illegal s)
  · have passed : ownError (.cfgd ms) s = none := check_eq_none.mpr (mem_legalWordCounts_iff.mp legal)
    obtain ⟨cs, words, len⟩ := effect_cfgd_of_legal legal s
    exact ⟨effect (.cfgd ms) s, exec_of_passed passed trivial, cs, words, len, Memory.read_zeroed, rfl, rfl, rfl⟩

/-! ### `PACK` (R183) -/

/-- A bit of a field after `PACK` is old OR the word's. -/
theorem bit_packLoop_inside {m : Memory} (wf : m.wf) {len : Nat} (hlen : len ≤ 33) (x : IndexFile) {n : Nat}
    (fit : 11 * n ≤ 8 * len) {wi j : Nat} (hwi : wi < n) (hj : j ≤ 10) :
    (packLoop m len x n).bit (11 * wi + 10 - j) = (m.bit (11 * wi + 10 - j) || (idxGet x wi).getLsbD j) := by
  have inside : 11 * wi + 10 - j < 11 * n := by omega
  have word : (11 * wi + 10 - j) / 11 = wi := by omega
  have place : 10 - (11 * wi + 10 - j) % 11 = j := by omega
  rw [bit_packLoop wf hlen x fit, decide_eq_true inside, Bool.true_and, word, place]

/-- A bit after the fields is as before `PACK`. -/
theorem bit_packLoop_outside {m : Memory} (wf : m.wf) {len : Nat} (hlen : len ≤ 33) (x : IndexFile) {n : Nat}
    (fit : 11 * n ≤ 8 * len) {o : Nat} (outside : 11 * n ≤ o) : (packLoop m len x n).bit o = m.bit o := by
  rw [bit_packLoop wf hlen x fit, decide_eq_false (Nat.not_lt.mpr outside), Bool.false_and, Bool.or_false]

/-- Settles O35: in another mode the check of `PACK` fails; in `DEC` its effect is the loop. -/
theorem packOrsTheWords : Obligations.PackOrsTheWords := by
  unfold Obligations.PackOrsTheWords
  refine ⟨commandWords_of_decode decode_op8, fun s wf => ⟨fun other => ?_, fun decoding len words fit => ?_⟩⟩
  · exact exec_of_ownError (check_eq_some.mpr ⟨other, rfl⟩)
  · exact ⟨effect .pack s, exec_of_passed (check_eq_none.mpr decoding) ⟨len, words⟩,
      fun wi hwi j hj => bit_packLoop_inside wf len s.idx fit hwi hj,
      fun o outside => bit_packLoop_outside wf len s.idx fit outside,
      fun a above => read_packLoop_above wf len s.idx s.ms.toNat a above, rfl⟩

end Sys2Proof.Machine
end

section
/-! PROOFS. What the words of a flow `VALIDATE` leave in `BUF` and how the flow ends (43_decoder.md R185, R186 (a), (b)):
the packed buffer is a function of the words alone, and `CSVFY` reads nothing but that buffer and `CS`. -/

namespace Sys2Proof.Machine

variable {s u u' : State} {vs : List Index} {c : Nat}

/-! ### The packed words -/

/-- The words one after another from bit 0 on, each as 11 bits, most significant first (R185). -/
def packedWords (vs : List Index) : Memory :=
  packLoop Memory.zeroed Config.bufBytes (storeIndices idxZeroed 0 vs) vs.length

theorem packedWords_wf (vs : List Index) : (packedWords vs).wf := packLoop_wf Memory.zeroed_wf (Nat.le_refl 33) _ _

/-- A bit of the packed words is one of a word's, or 0 after them. -/
theorem bit_packedWords (exist : vs.length ≤ 24) (o : Nat) :
    (packedWords vs).bit o = (decide (o < 11 * vs.length) && (vs[o / 11]?.getD 0).getLsbD (10 - o % 11)) := by
  rw [packedWords, bit_packLoop Memory.zeroed_wf (Nat.le_refl 33) _ (by omega), Memory.bit_zeroed, Bool.false_or]
  by_cases inWords : o < 11 * vs.length
  · have stored : 0 ≤ o / 11 ∧ o / 11 < 0 + vs.length := by omega
    rw [idxGet_storeIndices (by omega), if_pos stored, Nat.sub_zero]
  · rw [decide_eq_false inWords, Bool.false_and, Bool.false_and]

theorem bit_packedWords_inside (exist : vs.length ≤ 24) {wi j : Nat} (hwi : wi < vs.length) (hj : j ≤ 10) :
    (packedWords vs).bit (11 * wi + 10 - j) = (vs[wi]?.getD 0).getLsbD j := by
  have stored : 0 ≤ wi ∧ wi < 0 + vs.length := by omega
  rw [packedWords, bit_packLoop_inside Memory.zeroed_wf (Nat.le_refl 33) _ (by omega) hwi hj, Memory.bit_zeroed,
    Bool.false_or, idxGet_storeIndices (by omega), if_pos stored, Nat.sub_zero]

theorem bit_packedWords_outside (exist : vs.length ≤ 24) {o : Nat} (outside : 11 * vs.length ≤ o) :
    (packedWords vs).bit o = false :=
  (bit_packLoop_outside Memory.zeroed_wf (Nat.le_refl 33) _ (by omega) outside).trans (Memory.bit_zeroed o)

/-- Up to `PACK`, `VALIDATE` of a legal word count leaves the packed words, ready for `CSVFY`. -/
theorem runFlow_packFlow_packedWords (low : 4 ≤ c) (high : c ≤ 8) (length : vs.length = 3 * c) (h : s.Inv) :
    ∃ u, runFlow (packFlow vs) s = .next u ∧ u.Inv ∧ u.mode = .dec ∧ u.rsp = some ⟨.ok, 0⟩ ∧ u.cs.toNat = c ∧
      u.buf = packedWords vs := by
  obtain ⟨u, run, inv, decoding, rsp, cs, bits⟩ := runFlow_packFlow low high length h
  have total : 11 * vs.length = 33 * c := by omega
  refine ⟨u, run, inv, decoding, rsp, cs, Memory.ext_of_bits inv.1 (packedWords_wf vs) fun o => ?_⟩
  rw [bits, bit_packedWords (by omega), total]

/-- Settles O54: `BUF` holds the packed words, and in `DEC` the invariants give `LEN`. -/
theorem packedBufferIsTheConcatenation : Obligations.PackedBufferIsTheConcatenation := by
  unfold Obligations.PackedBufferIsTheConcatenation
  intro vs s legal h
  obtain ⟨c, low, high, length⟩ := exists_of_mem_legalWordCounts legal
  have exist : vs.length ≤ 24 := by omega
  obtain ⟨u, run, inv, decoding, rsp, cs, buf⟩ := runFlow_packFlow_packedWords low high length h
  obtain ⟨-, -, -, -, -, ⟨-, -, dec⟩, -⟩ := id inv
  obtain ⟨-, len⟩ := dec decoding
  refine ⟨u, run, rsp, decoding, inv, by omega, ?_⟩
  rw [buf]
  exact ⟨fun wi hwi j hj => bit_packedWords_inside exist hwi hj, fun o outside => bit_packedWords_outside exist outside⟩

/-! ### How the flow ends -/

/-- A flow whose first command's check fails ends with that command's error. -/
theorem runFlow_cons_of_ownError {i : Instr} {e : Status} (fits : WellFormed i) (failed : ownError i s = some e)
    (rest : List Instr) : runFlow (i :: rest) s = .next ((s.accept s.host).errorEntry e) := by
  have ends : issue i s = .next ((s.accept s.host).errorEntry e) := by
    rw [issue_eq (decodeOfEncode i fits)]
    exact exec_of_ownError ((ownError_accept s.host).trans failed)
  have notOk : ((s.accept s.host).errorEntry e).answeredOk = false := by
    simp [State.answeredOk, ownError_ne_ok failed]
  rw [runFlow_cons ends, notOk]
  rfl

/-- The flow `VALIDATE` of a legal word count is `CSVFY` on the packed words. -/
theorem runFlow_validateFlow_packedWords (low : 4 ≤ c) (high : c ≤ 8) (length : vs.length = 3 * c) (h : s.Inv) :
    ∃ u, runFlow (validateFlow vs) s = .next (issued .csvfy u) ∧ u.cs.toNat = c ∧ u.buf = packedWords vs := by
  obtain ⟨u, run, inv, decoding, rsp, cs, buf⟩ := runFlow_packFlow_packedWords low high length h
  have ok : u.answeredOk = true := by
    rw [State.answeredOk, rsp]
    rfl
  exact ⟨u, runFlow_validateFlow run ok inv decoding, cs, buf⟩

/-- The response of `CSVFY` (41_checksum.md R145). -/
theorem rsp_issued_csvfy (u : State) :
    (issued .csvfy u).rsp = some ⟨verdict (Config.sha256 u.message) u,
      0#16 ++ u.buf.read u.eb ++ (Config.sha256 u.message)[0]⟩ := rfl

/-- The response of `CSVFY` is a function of `BUF` and `CS`. -/
theorem rsp_issued_csvfy_congr (buf : u'.buf = u.buf) (cs : u'.cs = u.cs) :
    (issued .csvfy u').rsp = (issued .csvfy u).rsp := by
  have eb : u'.eb = u.eb := by rw [State.eb, State.eb, cs]
  have message : u'.message = u.message := by rw [State.message, State.message, eb, buf]
  rw [rsp_issued_csvfy, rsp_issued_csvfy, verdict, verdict, message, eb, buf, cs]

theorem verdict_ok_or_invalidChecksum (d : Config.Digest) (s : State) :
    verdict d s = .ok ∨ verdict d s = .invalidChecksum := ite_eq_or_eq _ _ _

/-- Settles O56: outside the set `CFGD` ends the flow; inside it `CSVFY` answers to the packed words. -/
theorem howAValidationEnds : Obligations.HowAValidationEnds := by
  unfold Obligations.HowAValidationEnds
  intro vs s s' fits h h'
  by_cases legal : vs.length ∈ legalWordCounts
  · obtain ⟨c, low, high, length⟩ := exists_of_mem_legalWordCounts legal
    obtain ⟨u, run, cs, buf⟩ := runFlow_validateFlow_packedWords low high length h
    obtain ⟨u', run', cs', buf'⟩ := runFlow_validateFlow_packedWords low high length h'
    have same : (issued .csvfy u').rsp = (issued .csvfy u).rsp :=
      rsp_issued_csvfy_congr (buf'.trans buf.symm) (BitVec.eq_of_toNat_eq (cs'.trans cs.symm))
    exact ⟨_, _, _, run, run', rfl, same, fun illegal => absurd legal illegal,
      fun _ => verdict_ok_or_invalidChecksum _ _⟩
  · have refused : ∀ r : State, ownError (.cfgd vs.length) r = some .invalidWordCount :=
      ownError_cfgd_of_not_legal legal
    exact ⟨_, _, _, runFlow_cons_of_ownError fits (refused s) _, runFlow_cons_of_ownError fits (refused s') _, rfl, rfl,
      fun _ => rfl, fun legal' => absurd legal' legal⟩

end Sys2Proof.Machine
end

section
/-! PROOFS. How many last words `VALIDATE` accepts (43_decoder.md R186 (c); 90_conflicts.md C9): of the last word's 11 bits
the top `11-CS` belong to the entropy, and for each value of those exactly one value of the low `CS` is its checksum. -/

namespace Sys2Proof.Machine

variable {s u : State} {vs ws : List Index} {v v' : Index} {c : Nat}

/-! ### The entropy and the checksum of the words -/

/-- The entropy in the packed words: their first `EB` bytes (R185). -/
def entropyOf (c : Nat) (ws : List Index) : List Byte := (List.range (4 * c)).map (packedWords ws).read

/-- The checksum that belongs to the entropy in the words: the top `c` bits of its digest's first byte (41_checksum.md
R146, R147), as a number. -/
def checksumOf (c : Nat) (ws : List Index) : Nat := (Config.sha256 (entropyOf c ws))[0].toNat / 2 ^ (8 - c)

theorem checksumOf_lt (high : c ≤ 8) : checksumOf c ws < 2 ^ c := by
  have byte : (Config.sha256 (entropyOf c ws))[0].toNat < 2 ^ c * 2 ^ (8 - c) := by
    rw [← Nat.pow_add, Nat.add_sub_of_le high]
    exact BitVec.isLt _
  exact Nat.div_lt_of_lt_mul (Nat.mul_comm _ _ ▸ byte)

/-- The low `c` bits of the last word stand at the top of byte `4*c`. -/
theorem read_packedWords_last (low : 4 ≤ c) (high : c ≤ 8) (length : vs.length + 1 = 3 * c) :
    ((packedWords (vs ++ [v])).read (4 * c)).toNat / 2 ^ (8 - c) = v.toNat % 2 ^ c := by
  have total : (vs ++ [v]).length = 3 * c := by simpa using length
  refine Nat.eq_of_testBit_eq fun j => ?_
  rw [Nat.testBit_div_two_pow, Nat.testBit_mod_two_pow, BitVec.testBit_toNat, BitVec.testBit_toNat]
  by_cases inChecksum : j < c
  · have last : 11 * vs.length + 10 - j = 8 * (4 * c) + (7 - (j + (8 - c))) := by omega
    have bit := bit_packedWords_inside (vs := vs ++ [v]) (wi := vs.length) (j := j) (by omega) (by omega) (by omega)
    have byte : (8 * (4 * c) + (7 - (j + (8 - c)))) / 8 = 4 * c := by omega
    have place : 7 - (8 * (4 * c) + (7 - (j + (8 - c)))) % 8 = j + (8 - c) := by omega
    rw [last, Memory.bit, byte, place, List.getElem?_concat_length] at bit
    rw [bit, decide_eq_true inChecksum, Bool.true_and, Option.getD_some]
  · rw [BitVec.getLsbD_of_ge _ _ (by omega), decide_eq_false inChecksum, Bool.false_and]

/-- Of the last word only the bits from `c` up belong to the entropy. -/
theorem entropyOf_congr (high : c ≤ 8) (length : vs.length + 1 = 3 * c)
    (top : ∀ j, c ≤ j → v.getLsbD j = v'.getLsbD j) : entropyOf c (vs ++ [v]) = entropyOf c (vs ++ [v']) := by
  have total : ∀ w : Index, (vs ++ [w]).length = 3 * c := fun w => by simpa using length
  refine List.map_congr_left fun a ha => read_eq_of_bits fun i hi => ?_
  have inEntropy : 8 * a + i < 32 * c := by
    rw [List.mem_range] at ha
    omega
  rw [bit_packedWords (by rw [total]; omega), bit_packedWords (by rw [total]; omega), total, total]
  by_cases earlier : (8 * a + i) / 11 < vs.length
  · rw [List.getElem?_append_left earlier, List.getElem?_append_left earlier]
  · have last : (8 * a + i) / 11 = vs.length := by omega
    rw [last, List.getElem?_concat_length, List.getElem?_concat_length, Option.getD_some, Option.getD_some,
      top _ (by omega)]

/-! ### The verdict -/

theorem answeredOk_issued_csvfy :
    (issued .csvfy u).answeredOk = true ↔ checksumAgrees u.cs (Config.sha256 u.message)[0] (u.buf.read u.eb) = true := by
  rw [State.answeredOk, rsp_issued_csvfy, Option.any_some, decide_eq_true_iff, verdict]
  by_cases agrees : checksumAgrees u.cs (Config.sha256 u.message)[0] (u.buf.read u.eb) = true
  · simp [agrees]
  · simp [agrees]

/-- `VALIDATE` accepts the words whose last `c` bits are the checksum of their entropy. -/
theorem endsOk_validateFlow_iff (low : 4 ≤ c) (high : c ≤ 8) (length : vs.length + 1 = 3 * c) (h : s.Inv) :
    endsOk (runFlow (validateFlow (vs ++ [v])) s) = true ↔ v.toNat % 2 ^ c = checksumOf c (vs ++ [v]) := by
  have total : (vs ++ [v]).length = 3 * c := by simpa using length
  obtain ⟨u, run, cs, buf⟩ := runFlow_validateFlow_packedWords low high total h
  have message : u.message = entropyOf c (vs ++ [v]) := by rw [State.message, State.eb, cs, buf, entropyOf]
  have compare := (compareUsesTheTopBitsOnly u.cs (Config.sha256 u.message)[0] (u.buf.read u.eb)
    (by omega) (by omega)).2
  rw [run, endsOk, answeredOk_issued_csvfy, compare, cs, BitVec.toNat_eq, BitVec.toNat_ushiftRight,
    BitVec.toNat_ushiftRight, Nat.shiftRight_eq_div_pow, Nat.shiftRight_eq_div_pow, message, buf, State.eb, cs,
    read_packedWords_last low high length, checksumOf, eq_comm]

/-! ### The count -/

/-- Below `k * m`, each of the `k` quotients by `m` has one number whose remainder is the one that belongs to it. -/
theorem card_mod_eq_of_div (k : Nat) {m : Nat} {f : Nat → Nat} (fits : ∀ q, f q < m) :
    ((Finset.range (k * m)).filter fun n => n % m = f (n / m)).card = k := by
  have pos : 0 < m := Nat.zero_lt_of_lt (fits 0)
  have quotient : ∀ q, (f q + m * q) / m = q := fun q => by
    rw [Nat.add_mul_div_left _ _ pos, Nat.div_eq_of_lt (fits q), Nat.zero_add]
  have remainder : ∀ q, (f q + m * q) % m = f q := fun q => by
    rw [Nat.add_mul_mod_self_left, Nat.mod_eq_of_lt (fits q)]
  refine (Finset.card_bij' (t := Finset.range k) (fun n _ => n / m) (fun q _ => f q + m * q) ?_ ?_ ?_ ?_).trans
    (Finset.card_range k)
  · intro n hn
    obtain ⟨below, -⟩ := Finset.mem_filter.mp hn
    exact Finset.mem_range.mpr (Nat.div_lt_of_lt_mul (Nat.mul_comm k m ▸ Finset.mem_range.mp below))
  · intro q hq
    have below : f q + m * q < k * m := by
      calc f q + m * q < m + m * q := Nat.add_lt_add_right (fits q) _
        _ = (q + 1) * m := by ring
        _ ≤ k * m := Nat.mul_le_mul_right m (Finset.mem_range.mp hq)
    exact Finset.mem_filter.mpr ⟨Finset.mem_range.mpr below, by rw [remainder, quotient]⟩
  · intro n hn
    obtain ⟨-, fixed⟩ := Finset.mem_filter.mp hn
    exact fixed ▸ Nat.mod_add_div n m
  · intro q _
    exact quotient q

/-- The checksum that belongs to the words `vs` and a last word with the top bits `q`. -/
def lastWordChecksum (c : Nat) (vs : List Index) (q : Nat) : Nat := checksumOf c (vs ++ [BitVec.ofNat 11 (2 ^ c * q)])

/-- The last word validates when its low `c` bits are the checksum that its top bits fix. -/
theorem endsOk_validateFlow_ofNat_iff (low : 4 ≤ c) (high : c ≤ 8) (length : vs.length + 1 = 3 * c) (h : s.Inv) {n : Nat}
    (hn : n < 2 ^ 11) :
    endsOk (runFlow (validateFlow (vs ++ [BitVec.ofNat 11 n])) s) = true ↔
      n % 2 ^ c = lastWordChecksum c vs (n / 2 ^ c) := by
  have entropy : entropyOf c (vs ++ [BitVec.ofNat 11 n]) =
      entropyOf c (vs ++ [BitVec.ofNat 11 (2 ^ c * (n / 2 ^ c))]) := by
    refine entropyOf_congr high length fun j top => ?_
    rw [BitVec.getLsbD_ofNat, BitVec.getLsbD_ofNat, Nat.testBit_two_pow_mul, Nat.testBit_div_two_pow,
      Nat.sub_add_cancel top, decide_eq_true top, Bool.true_and]
  rw [endsOk_validateFlow_iff low high length h, toNat_ofNat_of_lt hn, lastWordChecksum, checksumOf, checksumOf, entropy]

/-- Settles O57: each value of the last word's top bits fixes the entropy, and with it the one value of the low bits that
validates. -/
theorem acceptedLastWords : Obligations.AcceptedLastWords := by
  unfold Obligations.AcceptedLastWords
  intro vs s legal h
  obtain ⟨c, low, high, length⟩ := exists_of_mem_legalWordCounts legal
  have count : (vs.length + 1) / 3 = c := by omega
  have split : 2048 = 2 ^ (11 - c) * 2 ^ c := by
    rw [← Nat.pow_add, Nat.sub_add_cancel (by omega)]
  have accepted : ∀ n ∈ Finset.range 2048, endsOk (runFlow (validateFlow (vs ++ [BitVec.ofNat 11 n])) s) = true ↔
      n % 2 ^ c = lastWordChecksum c vs (n / 2 ^ c) := fun n hn =>
    endsOk_validateFlow_ofNat_iff low high length h (Finset.mem_range.mp hn)
  rw [Finset.filter_congr accepted, count, split]
  exact card_mod_eq_of_div (2 ^ (11 - c)) (f := lastWordChecksum c vs) fun q => checksumOf_lt high

end Sys2Proof.Machine
end

section
/-! PROOFS. Host access (44_buffer_access.md R200 to R204): each command refuses a length, an address or a register
number out of bounds with `BadAddress`, and in bounds it has its effect. -/

namespace Sys2Proof.Machine

/-! ### The length and the bytes of the buffer (R200 to R202) -/

/-- Settles O36: a length above 33 fails the check of `SETLEN`; any other fits the 6 bits of `LEN`, and the effect writes
`LEN` and `MODE` alone. -/
theorem setlenSetsTheLength : Obligations.SetlenSetsTheLength := by
  unfold Obligations.SetlenSetsTheLength
  refine ⟨commandWords_of_decode decode_op9, fun n s => ⟨fun beyond => ?_, fun bound => ?_⟩⟩
  · exact exec_of_ownError (check_eq_some.mpr ⟨Nat.not_le.mpr beyond, rfl⟩)
  · have fits : (effect (.setlen n) s).len.toNat = n := toNat_ofNat_of_lt (by omega)
    exact ⟨effect (.setlen n) s, exec_of_passed (check_eq_none.mpr bound) trivial, fits, rfl, rfl⟩

/-- Settles O37: an address at or beyond `LEN` fails the check of `PUTB`; below it the effect is one write. -/
theorem putbStoresAByte : Obligations.PutbStoresAByte := by
  unfold Obligations.PutbStoresAByte
  refine ⟨commandWords_of_decode decode_op10, fun a d s len wf => ⟨fun beyond => ?_, fun below => ?_⟩⟩
  · exact exec_of_ownError (check_eq_some.mpr ⟨Nat.not_lt.mpr beyond, rfl⟩)
  · exact ⟨effect (.putb a d) s, exec_of_passed (check_eq_none.mpr below) len,
      fun b => Memory.read_write wf a b d, rfl⟩

/-- Settles O38: an address at or beyond `LEN` fails the check of `GETB`; below it the effect is the answer alone. -/
theorem getbReadsAByte : Obligations.GetbReadsAByte := by
  unfold Obligations.GetbReadsAByte
  refine ⟨commandWords_of_decode decode_op11, fun a s len => ⟨fun beyond => ?_, fun below => ?_⟩⟩
  · exact exec_of_ownError (check_eq_some.mpr ⟨Nat.not_lt.mpr beyond, rfl⟩)
  · exact exec_of_passed (check_eq_none.mpr below) len

/-! ### The index registers (R203, R204) -/

/-- The registers that exist are those up to 23. -/
theorem indexOk_iff {wi : Nat} : indexOk wi ↔ wi ≤ 23 := Nat.lt_succ_iff

/-- A register above 23 fails the check of `PUTI` and of `GETI`. -/
theorem check_indexOk_of_lt {wi : Nat} (beyond : 23 < wi) :
    check (indexOk wi) .badAddress = some .badAddress :=
  check_eq_some.mpr ⟨indexOk_iff.not.mpr (Nat.not_le.mpr beyond), rfl⟩

/-- Settles O39: a register above 23 fails the check of `PUTI`; up to 23 the effect is one write to the file. -/
theorem putiStoresAnIndex : Obligations.PutiStoresAnIndex := by
  unfold Obligations.PutiStoresAnIndex
  refine ⟨commandWords_of_decode decode_op12, fun wi val s => ⟨fun beyond => ?_, fun bound => ?_⟩⟩
  · exact exec_of_ownError (check_indexOk_of_lt beyond)
  · have exist : indexOk wi := indexOk_iff.mpr bound
    exact ⟨effect (.puti wi val) s, exec_of_passed (check_eq_none.mpr exist) trivial,
      fun j _ => idxGet_idxPut s.idx wi j val exist, rfl⟩

/-- Settles O40: a register above 23 fails the check of `GETI`; up to 23 the effect is the answer alone. -/
theorem getiReadsAnIndex : Obligations.GetiReadsAnIndex := by
  unfold Obligations.GetiReadsAnIndex
  refine ⟨commandWords_of_decode decode_op13, fun wi s => ⟨fun beyond => ?_, fun bound => ?_⟩⟩
  · exact exec_of_ownError (check_indexOk_of_lt beyond)
  · exact exec_of_passed (check_eq_none.mpr (indexOk_iff.mpr bound)) trivial

end Sys2Proof.Machine
end

section
/-! PROOFS. System commands (45_system.md R220, R221): `WIPE` puts the reset value in every piece of state, and `STAT`
reports a status word and writes nothing. -/

namespace Sys2Proof.Machine

/-! ### The effect of `WIPE` (R220) -/

/-- A wiped block is the reset block: by `wiped_eq` the two differ at most in the fields of the model's own (log 1,
log 2). -/
theorem effect_wipe_sameBlock_reset (s : State) : (effect .wipe s).sameBlock State.reset := by
  simp [effect, wiped_eq]

/-- Wiping a wiped block changes nothing. -/
theorem effect_wipe_effect_wipe (s : State) : effect .wipe (effect .wipe s) = effect .wipe s := by
  simp [effect, wiped_eq]

/-- Settles O41: `WIPE` makes no check, so it has its effect in every state, and the pieces of a wiped block are read off
one by one. -/
theorem wipeZeroesEverything : Obligations.WipeZeroesEverything := by
  unfold Obligations.WipeZeroesEverything
  refine ⟨commandWords_of_decode decode_op14, fun s => ?_⟩
  have runs (u : State) : exec .wipe u = .next (effect .wipe u) := exec_of_passed rfl trivial
  have again : exec .wipe (effect .wipe s) = .next (effect .wipe s) := by rw [runs, effect_wipe_effect_wipe]
  exact ⟨effect .wipe s, runs s, again, rfl, effect_wipe_sameBlock_reset s, Memory.read_zeroed,
    fun i _ => idxGet_zeroed i, fun i => Vector.getElem_replicate i.isLt,
    rfl, rfl, rfl, rfl, rfl, rfl, rfl, rfl, rfl, rfl, rfl⟩

/-! ### The selectors of `STAT` (R221) -/

/-- Settles O42: the selectors 0 and 1 pass the check of `STAT`, whose effect is the answer alone; any other fails it. -/
theorem statReturnsAStatusWord : Obligations.StatReturnsAStatusWord := by
  unfold Obligations.StatReturnsAStatusWord
  refine ⟨commandWords_of_decode decode_op15, fun s => ⟨?status, ?aux, fun sel above => ?other⟩⟩
  case status => exact exec_of_passed (check_eq_none.mpr (Nat.zero_le 1)) trivial
  case aux => exact exec_of_passed (check_eq_none.mpr (Nat.le_refl 1)) trivial
  case other => exact exec_of_ownError (check_eq_some.mpr ⟨Nat.not_le.mpr above, rfl⟩)

end Sys2Proof.Machine
end

section
/-! PROOFS. Errors (60_exceptions.md R230 to R241). A command word ends by error entry or has the effect of its command,
and a status other than `OK` comes with an effect in one case alone: the verdict of `CSVFY`. -/

namespace Sys2Proof.Machine

variable {i : Instr} {w : Word} {rest : List HostMove} {s t : State} {r : Response}

/-! ### The words that are no command (R236) -/

/-- The row looks for the opcode `op`, and for 0 in the must-be-zero bits of its format. -/
abbrev isRowOf (op : BitVec 4) (r : Row) : Prop :=
  r.pattern = op.setWidth 32 <<< 28 ∧ r.mask = 0xF0000000#32 ||| mustBeZero op

theorem match_iff_of_isRowOf {op : BitVec 4} {r : Row} (row : isRowOf op r) :
    w &&& r.mask = r.pattern ↔ fieldOp w = op ∧ w &&& mustBeZero op = 0 := by
  have outside : ∀ op : BitVec 4, (mustBeZero op).extractLsb' 28 4 = 0 := by decide
  obtain ⟨pattern, mask⟩ := row
  rw [pattern, mask, and_mask_eq_iff w op (outside op)]

/-- Every row is that of an opcode other than 0. -/
theorem exists_opcode_of_row : ∀ r ∈ opcodeTable, ∃ op : BitVec 4, op ≠ 0 ∧ isRowOf op r := by decide

/-- Every opcode other than 0 has its row. -/
theorem exists_row_of_opcode : ∀ op : BitVec 4, op ≠ 0 → ∃ r ∈ opcodeTable, isRowOf op r := by decide

theorem exists_match_iff (w : Word) :
    (∃ r ∈ opcodeTable, w &&& r.mask = r.pattern) ↔ fieldOp w ≠ 0 ∧ w &&& mustBeZero (fieldOp w) = 0 := by
  constructor
  · rintro ⟨r, mem, matched⟩
    obtain ⟨op, nonzero, row⟩ := exists_opcode_of_row r mem
    obtain ⟨rfl, zeros⟩ := (match_iff_of_isRowOf row).mp matched
    exact ⟨nonzero, zeros⟩
  · rintro ⟨nonzero, zeros⟩
    obtain ⟨r, mem, row⟩ := exists_row_of_opcode (fieldOp w) nonzero
    exact ⟨r, mem, (match_iff_of_isRowOf row).mpr ⟨rfl, zeros⟩⟩

theorem exists_illegal_iff (w : Word) : (∃ e, decode w = .error e) ↔ ¬(decode w).toOption.isSome := by
  cases decode w <;> simp [Except.toOption]

/-- Settles O5: the words that match no row are the illegal ones, and such a word ends by error entry. -/
theorem illegalWordsEndInIllegalCommand : Obligations.IllegalWordsEndInIllegalCommand := by
  unfold Obligations.IllegalWordsEndInIllegalCommand
  refine fun w => ⟨?_, fun e s rest illegal host => ?_⟩
  · rw [exists_illegal_iff, isSome_decode_iff, exists_match_iff, not_and_or, not_not]
    rfl
  · rw [step_command host, runCommand_of_illegal illegal]
    rfl

/-! ### The status of a command (R230, R239) -/

/-- The status that comes with an effect is `OK`, but for the verdict of `CSVFY`. -/
theorem effect_st (answered : (effect i s).rsp = some r) :
    r.st = .ok ∨ i = .csvfy ∧ r.st = verdict (Config.sha256 s.message) s := by
  cases i with
  | csvfy =>
    cases answered
    exact .inr ⟨rfl, rfl⟩
  | _ =>
    cases answered
    exact .inl rfl

/-- The status that comes with an effect is `OK`, or `InvalidChecksum` from `CSVFY`. -/
theorem effect_st_ok_or_invalidChecksum (answered : (effect i s).rsp = some r) :
    r.st = .ok ∨ i = .csvfy ∧ r.st = .invalidChecksum := by
  rcases effect_st answered with ok | ⟨rfl, st⟩
  · exact .inl ok
  · rw [st]
    exact (verdict_ok_or_invalidChecksum _ s).imp_right fun bad => ⟨rfl, bad⟩

theorem ok_mem_statusesOf (i : Instr) : .ok ∈ statusesOf i := by
  cases i <;> exact List.mem_cons_self

theorem entropyError_mem {n : Nat} {c : Status} (error : entropyError n = some c) :
    c ∈ [.entropyTooLow, .entropyTooHigh, .entropyNotAligned] := by
  unfold entropyError at error
  split_ifs at error <;> cases error <;> decide

/-- A command's own error is one that the table of R230 gives it. -/
theorem ownError_mem_statusesOf {c : Status} (failed : ownError i s = some c) : c ∈ statusesOf i := by
  cases i with
  | cfge n => exact List.mem_cons_of_mem _ (entropyError_mem failed)
  | wipe => cases failed
  | _ =>
    obtain ⟨-, rfl⟩ := check_eq_some.mp failed
    simp [statusesOf]

theorem effect_st_mem_statusesOf (answered : (effect i s).rsp = some r) : r.st ∈ statusesOf i := by
  rcases effect_st_ok_or_invalidChecksum answered with ok | ⟨rfl, bad⟩
  · rw [ok]
    exact ok_mem_statusesOf i
  · rw [bad]
    decide

/-- The ten statuses, in the order of their numbers. -/
def allStatuses : List Status :=
  [.ok, .entropyTooLow, .entropyTooHigh, .entropyNotAligned, .invalidWordCount, .invalidChecksum, .illegalCommand,
    .badOffset, .badAddress, .badSequence]

theorem mem_allStatuses (c : Status) : c ∈ allStatuses := by
  cases c <;> decide

theorem codes_allStatuses : allStatuses.map (fun c => c.code.toNat) = [0, 1, 2, 3, 4, 5, 8, 9, 10, 11] := rfl

theorem Status.code_mem (c : Status) : c.code.toNat ∈ [0, 1, 2, 3, 4, 5, 8, 9, 10, 11] :=
  codes_allStatuses ▸ List.mem_map_of_mem (mem_allStatuses c)

/-- No number stands twice in the list. -/
theorem Status.code_injective {c c' : Status} (same : c.code = c'.code) : c = c' := by
  have distinct : (allStatuses.map fun c => c.code.toNat).Nodup := by
    rw [codes_allStatuses]
    decide
  exact List.inj_on_of_nodup_map distinct (mem_allStatuses c) (mem_allStatuses c') (congrArg BitVec.toNat same)

/-- Settles O45: a response has the command's own error or comes with its effect, and the ten codes are read off the
table. -/
theorem statusesOfEachCommand : Obligations.StatusesOfEachCommand := by
  unfold Obligations.StatusesOfEachCommand
  refine ⟨fun i s t r run answered => ?_, rfl, rfl, rfl, rfl, rfl, rfl, rfl, rfl, rfl, rfl, Status.code_mem,
    fun c c' => Status.code_injective, fun s r answered => ?_⟩
  · rcases exec_next_iff.mp run with ⟨c, failed, rfl⟩ | ⟨-, -, rfl⟩
    · cases answered
      exact ownError_mem_statusesOf failed
    · exact effect_st_mem_statusesOf answered
  · simp [State.rspValid, State.rspSt, State.rspData, answered]

/-- A command of a flow outside its phase (10_state.md R25). -/
def wrongMode (i : Instr) (s : State) : Prop :=
  i = .csapp ∧ s.mode ≠ .encLoad ∨ i = .unpk ∧ s.mode ≠ .encReady ∨ i = .pack ∧ s.mode ≠ .dec ∨
    i = .csvfy ∧ s.mode ≠ .dec

theorem ownError_eq_badSequence_iff : ownError i s = some .badSequence ↔ wrongMode i s := by
  cases i with
  | cfge n =>
    have other : entropyError n ≠ some .badSequence := fun error => absurd (entropyError_mem error) (by decide)
    simp [ownError, wrongMode, other]
  | _ => simp [ownError, wrongMode]

/-- Settles O46: an effect never comes with `BadSequence`, and the checks that fail with it are those of `MODE`. -/
theorem badSequenceIsTheWrongMode : Obligations.BadSequenceIsTheWrongMode := by
  unfold Obligations.BadSequenceIsTheWrongMode
  intro i s h
  cases e : ownError i s with
  | some c =>
    refine ⟨_, _, exec_of_ownError e, rfl, ?_⟩
    exact Option.some_inj.symm.trans (e ▸ ownError_eq_badSequence_iff)
  | none =>
    obtain ⟨r, answered⟩ := exists_effect_rsp (i := i) (s := s)
    have rightMode : ¬wrongMode i s := by simp [← ownError_eq_badSequence_iff, e]
    refine ⟨_, r, exec_of_inv h e, answered, iff_of_false (fun bad => ?_) rightMode⟩
    exact absurd (effect_st_ok_or_invalidChecksum answered) (by simp [bad])

/-! ### What a command word leaves (R240, R241) -/

/-- `InvalidChecksum` is no command's own error. -/
theorem ownError_ne_invalidChecksum {c : Status} (failed : ownError i s = some c) : c ≠ .invalidChecksum := by
  rintro rfl
  cases i with
  | cfge n => exact absurd (entropyError_mem failed) (by decide)
  | wipe => cases failed
  | _ => cases (check_eq_some.mp failed).2

/-- Everything the step on a command word can do when it answers a next state: error entry, with an error that is not
`InvalidChecksum`, or the effect of the command that the word decodes to. -/
theorem step_command_cases (host : s.host = .command w :: rest) (run : step s = .next t) :
    (∃ c, c ≠ .ok ∧ c ≠ .invalidChecksum ∧ t = (s.accept rest).errorEntry c) ∨
    ∃ i, decode w = .ok i ∧ ownError i s = none ∧ t = effect i (s.accept rest) := by
  rw [step_command host] at run
  cases dec : decode w with
  | error e =>
    rw [runCommand_of_illegal dec] at run
    cases run
    exact .inl ⟨.illegalCommand, nofun, nofun, rfl⟩
  | ok i =>
    rw [runCommand_of_decode dec] at run
    rcases exec_next_iff.mp run with ⟨c, failed, rfl⟩ | ⟨passed, -, rfl⟩
    · exact .inl ⟨c, ownError_ne_ok failed, ownError_ne_invalidChecksum failed, rfl⟩
    · exact .inr ⟨i, rfl, (ownError_accept rest).symm.trans passed, rfl⟩

/-- `InvalidChecksum` says that the checksum bits differ. -/
theorem csok_of_invalidChecksum {d : Config.Digest} (bad : verdict d s = .invalidChecksum) :
    (csvfyCheck d s).csok = false := by
  refine Bool.eq_false_iff.mpr fun agrees => ?_
  rw [verdict_of_csok agrees] at bad
  cases bad

/-- An effect other than `WIPE`'s latches the status it comes with. -/
theorem effect_err_latched (other : i ≠ .wipe) (answered : (effect i s).rsp = some r) :
    (effect i s).err = if s.err = .ok then r.st else s.err := by
  cases i with
  | wipe => exact absurd rfl other
  | csvfy =>
    cases answered
    rfl
  | _ =>
    cases answered
    exact (ite_eq_right_iff.mpr Eq.symm).symm

/-- Settles O43: an error other than `InvalidChecksum` is error entry, and `InvalidChecksum` is the verdict of `CSVFY`,
which comes with its effect. -/
theorem errorsChangeNothingElse : Obligations.ErrorsChangeNothingElse := by
  unfold Obligations.ErrorsChangeNothingElse
  intro s t w rest r host run answered
  rcases step_command_cases host run with ⟨c, -, other, rfl⟩ | ⟨i, dec, passed, rfl⟩
  · cases answered
    exact ⟨fun _ _ => rfl, fun bad => absurd bad other⟩
  · refine ⟨fun notOk notBad => ?_, fun bad => ?_⟩
    · exact absurd (effect_st_ok_or_invalidChecksum answered) (by simp [notOk, notBad])
    · obtain ⟨rfl, st⟩ := (effect_st answered).resolve_left (by simp [bad])
      have latched := effect_err_latched (i := .csvfy) nofun answered
      rw [bad] at st latched
      exact ⟨dec, check_eq_none.mp passed, rfl, csok_of_invalidChecksum st.symm, rfl, Memory.read_zeroed, latched⟩

theorem ownError_withErr (e : Status) : ownError i { s with err := e } = ownError i s := by
  cases i <;> rfl

/-- An effect other than `STAT 0`'s shows `ERR` in no other piece of state and in no response. -/
theorem effect_withErr (report : i ≠ .stat 0) (e : Status) :
    effect i { s with err := e } = { effect i s with err := (effect i { s with err := e }).err } := by
  cases i with
  | stat sel =>
    have selector : sel ≠ 0 := fun zero => report (congrArg Instr.stat zero)
    simp only [effect, if_neg selector]
    rfl
  | _ => rfl

/-- `ERR` is no input of a command but `STAT 0`. -/
theorem exec_withErr (report : i ≠ .stat 0) (h : s.Inv) (e : Status) :
    ∃ t t', exec i s = .next t ∧ exec i { s with err := e } = .next t' ∧ t' = { t with err := t'.err } := by
  cases failed : ownError i s with
  | some c =>
    exact ⟨_, _, exec_of_ownError failed, exec_of_ownError ((ownError_withErr e).trans failed), rfl⟩
  | none =>
    have h' : { s with err := e }.Inv := h
    exact ⟨_, _, exec_of_inv h failed, exec_of_inv h' ((ownError_withErr e).trans failed), effect_withErr report e⟩

theorem decode_wipe : decode 0xE0000000 = .ok .wipe := decodeOfEncode .wipe trivial

/-- Settles O44: error entry and every effect but `WIPE`'s latch the status, and no command but `STAT 0` reads `ERR`. -/
theorem firstErrorSticks : Obligations.FirstErrorSticks := by
  unfold Obligations.FirstErrorSticks
  refine ⟨fun s t w rest r host run answered notWipe => ?_, fun s t rest host run => ?_,
    fun i s e report h => exec_withErr report h e⟩
  · rcases step_command_cases host run with ⟨c, -, -, rfl⟩ | ⟨i, dec, -, rfl⟩
    · cases answered
      rfl
    · refine effect_err_latched (s := s.accept rest) ?_ answered
      rintro rfl
      exact notWipe (encodeOfDecode w .wipe dec).2.symm
  · rcases host with wipe | rst
    · rw [step_command wipe, runCommand_of_decode decode_wipe] at run
      cases run
      rfl
    · rw [step, rst] at run
      cases run
      rfl

end Sys2Proof.Machine
end

section
/-! PROOFS. Reset (70_reset_and_hazards.md R270, R271): the step on `rst` and the step on the `WIPE` word both leave the
reset block, and the pieces of state are read off it. -/

namespace Sys2Proof.Machine

variable {rest : List HostMove} {s t : State}

/-- A step on `rst` takes that move and has no other trace of the state before. -/
theorem step_rst (host : s.host = .rst :: rest) : step s = .next (s.assertRst rest) := by
  rw [step, host]

/-- A step on the `WIPE` word has the effect of `WIPE`, which makes no check. -/
theorem step_wipe (host : s.host = .command 0xE0000000 :: rest) : step s = .next (effect .wipe (s.accept rest)) := by
  rw [step_command host, runCommand_of_decode decode_wipe]
  exact exec_of_passed rfl trivial

theorem assertRst_sameBlock_reset (s : State) (rest : List HostMove) : (s.assertRst rest).sameBlock State.reset := rfl

theorem exists_step_sameBlock_reset (host : s.host = .rst :: rest ∨ s.host = .command 0xE0000000 :: rest) :
    ∃ t, step s = .next t ∧ t.sameBlock State.reset := by
  rcases host with rst | wipe
  · exact ⟨_, step_rst rst, assertRst_sameBlock_reset s rest⟩
  · exact ⟨_, step_wipe wipe, effect_wipe_sameBlock_reset (s.accept rest)⟩

theorem reset_status : State.reset.status = 0 := by decide

theorem reset_aux : State.reset.aux = 0 := by decide

/-- The status words are made of pieces of state alone. -/
theorem status_aux_of_sameBlock_reset (block : t.sameBlock State.reset) : t.status = 0 ∧ t.aux = 0 :=
  ⟨(congrArg State.status block).trans reset_status, (congrArg State.aux block).trans reset_aux⟩

/-- Settles O9: either move leaves the reset block, and each piece of it has the value of R270. -/
theorem theResetState : Obligations.TheResetState := by
  unfold Obligations.TheResetState
  intro s rest host
  obtain ⟨t, run, block⟩ := exists_step_sameBlock_reset host
  have idx : t.idx = idxZeroed := congrArg State.idx block
  have digest : t.digest = Vector.replicate 32 0 := congrArg State.digest block
  refine ⟨t, run, fun a => congrArg (fun u => u.buf.read a) block, congrArg State.len block, fun i _ => ?_,
    congrArg State.cs block, congrArg State.ms block, congrArg State.mode block, congrArg State.csb block,
    congrArg State.obs block, fun i => ?_, congrArg State.err block, congrArg State.csok block,
    congrArg State.vfd block, status_aux_of_sameBlock_reset block⟩
  · rw [idx, idxGet_zeroed]
  · rw [digest]
    exact Vector.getElem_replicate i.isLt

/-- Settles O10: both steps leave the reset block, and only the effect of `WIPE` puts a response on the port. -/
theorem rstAndWipeAreEquivalent : Obligations.RstAndWipeAreEquivalent := by
  unfold Obligations.RstAndWipeAreEquivalent
  intro s s' rest rest' rst wipe
  exact ⟨s.assertRst rest, effect .wipe (s'.accept rest'), step_rst rst, step_wipe wipe,
    assertRst_sameBlock_reset s rest, effect_wipe_sameBlock_reset (s'.accept rest'), rfl, rfl⟩

end Sys2Proof.Machine
end
